-- ==== Sys2Proof/Word.lean ====
section
/-! DEFINITION. The word types of the engine, its plainest arithmetic, and the two words of a transaction. -/

namespace Sys2Proof

/-- A 64-bit lane, key half, operand or response datum (00_scope.md R5, R6). -/
abbrev Word64 := BitVec 64

/-- One byte of a key or of a message. -/
abbrev Byte := BitVec 8

/-- A 16-bit command word (30_encoding.md R60). -/
abbrev CmdWord := BitVec 16

/-- 00_scope.md R9: the sum modulo 2^64; the carry is discarded. -/
def add64 (a b : Word64) : Word64 := a + b

/-- 00_scope.md R9: bitwise exclusive or of two lanes. -/
def xor64 (a b : Word64) : Word64 := a ^^^ b

/-- 00_scope.md R9: the sum modulo 256, used by the total-length counter alone. -/
def add8 (a b : Byte) : Byte := a + b

/-- One transaction on the command port, its two parts delivered together (30_encoding.md R60). -/
structure Command where
  cmd : CmdWord
  opd : Word64
deriving DecidableEq, Repr

end Sys2Proof
end

