-- ==== Sys2Proof/Syntax.lean ====
section
/-! DEFINITION. The eight commands of the engine, one constructor for each row of spec/opcode_table.json. -/

namespace Sys2Proof

/-- A command as the decoder reads it (30_encoding.md R64). `n` and `i` are the LEN field, read as it stands;
`opd` is the operand of the two commands that use it. The other commands ignore OPD (R63), so they carry none. -/
inductive Instr where
  | nop
  | keyb (n : BitVec 4) (opd : Word64)
  | keyc
  | rst
  | upd (n : BitVec 4) (opd : Word64)
  | fin
  | stat
  | idq (i : BitVec 4)
deriving DecidableEq, Repr

end Sys2Proof
end

