-- ==== Sys2Proof/WellFormed.lean ====
section
/-! DEFINITION. Which commands have an encoding: the range of the LEN field (30_encoding.md R62). -/

namespace Sys2Proof

/-- 30_encoding.md R62: KEYB and UPD take 0 to 8 data bytes, IDQ the index 0 or 1. -/
def wellFormed : Instr → Bool
  | .nop => true
  | .keyb n _ => decide (n.toNat ≤ 8)
  | .keyc => true
  | .rst => true
  | .upd n _ => decide (n.toNat ≤ 8)
  | .fin => true
  | .stat => true
  | .idq i => decide (i.toNat ≤ 1)

end Sys2Proof
end

