-- ==== Sys2Proof/Decode.lean ====
section
/-! DEFINITION. Decoding a transaction, total and rejecting by name, and the encoder beside it. -/

namespace Sys2Proof

/-- Why a command word is illegal: the five cases (a) to (e) of 30_encoding.md R66. -/
inductive Illegal where
  | reservedSet
  | unassignedOp
  | lenNotZero
  | lenAboveEight
  | indexAboveOne
deriving DecidableEq, Repr

/-- RSV = CMD[15:12] (30_encoding.md R61). -/
def rsvField (w : CmdWord) : BitVec 4 := w.extractLsb' 12 4

/-- LEN = CMD[11:8] (30_encoding.md R61, R62). -/
def lenField (w : CmdWord) : BitVec 4 := w.extractLsb' 8 4

/-- OP = CMD[7:0] (30_encoding.md R61). -/
def opField (w : CmdWord) : BitVec 8 := w.extractLsb' 0 8

/-- 30_encoding.md R65: the legality of a command word, a function of CMD alone. -/
def legal (w : CmdWord) : Bool :=
  rsvField w == 0 &&
    match (opField w).toNat with
    | 0x00 | 0x02 | 0x03 | 0x05 | 0x06 => lenField w == 0
    | 0x01 | 0x04 => decide ((lenField w).toNat ≤ 8)
    | 0x07 => decide ((lenField w).toNat ≤ 1)
    | _ => false

/-- A command without data: its LEN must be 0 (30_encoding.md R62, R66 (c)). -/
def decodePlain (len : BitVec 4) (i : Instr) : Except Illegal Instr :=
  if len = 0 then .ok i else .error .lenNotZero

/-- A command with LEN data bytes, at most 8 (30_encoding.md R62, R66 (d)). -/
def decodeData (len : BitVec 4) (i : Instr) : Except Illegal Instr :=
  if len.toNat ≤ 8 then .ok i else .error .lenAboveEight

/-- IDQ: its index must be 0 or 1 (30_encoding.md R62, R66 (e)). -/
def decodeIndex (len : BitVec 4) (i : Instr) : Except Illegal Instr :=
  if len.toNat ≤ 1 then .ok i else .error .indexAboveOne

/-- The command of a transaction, by the opcode map of 30_encoding.md R64; any other word is refused by the
case of R66 it falls under, the first in the order (a), (b), then the case of its LEN. -/
def decode (c : Command) : Except Illegal Instr :=
  let len := lenField c.cmd
  if rsvField c.cmd ≠ 0 then .error .reservedSet
  else
    match (opField c.cmd).toNat with
    | 0x00 => decodePlain len .nop
    | 0x01 => decodeData len (.keyb len c.opd)
    | 0x02 => decodePlain len .keyc
    | 0x03 => decodePlain len .rst
    | 0x04 => decodeData len (.upd len c.opd)
    | 0x05 => decodePlain len .fin
    | 0x06 => decodePlain len .stat
    | 0x07 => decodeIndex len (.idq len)
    | _ => .error .unassignedOp

/-- The command word with RSV = 0, the given LEN and the given OP (30_encoding.md R61);
the assembler's (n << 8) | OP (R70). -/
def cmdWord (len : BitVec 4) (op : BitVec 8) : CmdWord := (len.setWidth 16 <<< 8) ||| op.setWidth 16

/-- The transaction of a command (30_encoding.md R64; OPD = 0 where the command takes none, R70). -/
def encode : Instr → Command
  | .nop => ⟨cmdWord 0 0x00, 0⟩
  | .keyb n opd => ⟨cmdWord n 0x01, opd⟩
  | .keyc => ⟨cmdWord 0 0x02, 0⟩
  | .rst => ⟨cmdWord 0 0x03, 0⟩
  | .upd n opd => ⟨cmdWord n 0x04, opd⟩
  | .fin => ⟨cmdWord 0 0x05, 0⟩
  | .stat => ⟨cmdWord 0 0x06, 0⟩
  | .idq i => ⟨cmdWord i 0x07, 0⟩

/-- The transaction whose first `nbits` bits are `w`, bit 0 being the least significant bit of CMD and OPD's
bits counting on from bit 16; every bit above `nbits` is 0 (log entry 7). -/
def tableCommand (nbits w : Nat) : Command :=
  let bits := w % 2 ^ nbits
  ⟨BitVec.ofNat 16 bits, BitVec.ofNat 64 (bits / 2 ^ 16)⟩

/-- What the decoder reads from a word numbered as spec/opcode_table.json numbers it. -/
def decodeTableWord (nbits w : Nat) : Option Instr :=
  match decode (tableCommand nbits w) with
  | .ok i => some i
  | .error _ => none

end Sys2Proof
end

