-- ==== Sys2Proof/Machine/State.lean ====
section
/-! DEFINITION. The engine's state (10_state.md R20), its two ports, and its value after hardware reset (R30). -/

namespace Sys2Proof.Machine

/-- The life-cycle states of 10_state.md R26. -/
inductive Fsm where
  | unkeyed
  | fresh
  | absorbing
  | finalized
deriving DecidableEq, Repr

/-- The four lanes (10_state.md R21). -/
structure Lanes where
  v0 : Word64
  v1 : Word64
  v2 : Word64
  v3 : Word64
deriving DecidableEq, Repr

/-- The response codes of 60_exceptions.md R120; the codes 5 to 15 are never produced. -/
inductive RespCode where
  | ok
  | illegalCmd
  | invalidKeyLength
  | noKey
  | sequence
deriving DecidableEq, Repr

/-- The engine's answer to one command (30_encoding.md R69). -/
structure Response where
  code  : RespCode
  rdata : Word64
deriving DecidableEq, Repr

/-- What the host can do to the engine (70_reset_and_hazards.md R147): issue a transaction, or assert hardware
reset. `cut` is the command in progress that the reset abandons, if there is one (R140 (a)). -/
inductive HostInput where
  | command (c : Command)
  | hardwareReset (cut : Option Command)
deriving DecidableEq, Repr

/-- The engine's state elements in the order of 10_state.md R20, and after them the two ports: `inputs` is what
the host offers, the next first; `responses` is what the host has been given, the oldest first.
`ksCnt` is KS_CNT (0 to 17) and `bufCnt` is BUF_CNT between two commands (0 to 7); see log entry 3. -/
structure State where
  lanes     : Lanes
  k0        : Word64
  k1        : Word64
  ks        : Vector Byte 16
  ksCnt     : Fin 18
  buf       : Vector Byte 8
  bufCnt    : Fin 8
  totalLen  : Byte
  fsm       : Fsm
  inputs    : List HostInput
  responses : List Response
deriving DecidableEq, Repr

/-- The engine never faults: an error is the response of a normal step (60_exceptions.md R127). So there is no
fault to name, and leaving none out is safe: no step can stop for want of a meaning. -/
inductive Fault where
deriving DecidableEq, Repr

/-- The reasons for a step without a meaning. -/
inductive Refusal where
  /-- Raised only by an arm of `exec` that has no meaning yet; no arm raises it now. Safe: the machine stops. -/
  | notModelled (mnemonic : String)
deriving DecidableEq, Repr

/-- 10_state.md R30: every element 0 and FSM = UNKEYED. Both ports are empty (log entries 1 and 2). -/
def State.reset : State where
  lanes := ⟨0, 0, 0, 0⟩
  k0 := 0
  k1 := 0
  ks := Vector.replicate 16 0
  ksCnt := 0
  buf := Vector.replicate 8 0
  bufCnt := 0
  totalLen := 0
  fsm := .unkeyed
  inputs := []
  responses := []

end Sys2Proof.Machine
end

