-- ==== Sys2Proof/Machine/Ops.lean ====
section
/-! DEFINITION. The operations every command shares: responding, raising an error, taking an input, reset. -/

namespace Sys2Proof.Machine

/-- respond(code, rdata) of 00_scope.md R11: the command's one response (30_encoding.md R69), given in order. -/
def respond (code : RespCode) (rdata : Word64) (s : State) : State :=
  { s with responses := s.responses ++ [⟨code, rdata⟩] }

/-- Raising an error, the engine's only exception (60_exceptions.md R127): nothing is saved, no mode or mask
changes, control goes nowhere, and every state element stays (R126). There is no return from it. -/
def raise (code : RespCode) (rdata : Word64) (s : State) : State := respond code rdata s

/-- ILLEGAL_CMD for a command word, with RDATA = zext_64(CMD) (60_exceptions.md R121). -/
def raiseIllegal (w : CmdWord) (s : State) : State := raise .illegalCmd (w.setWidth 64) s

/-- The meaning of a command whose LEN is in range, or ILLEGAL_CMD for its word where it is not
(30_encoding.md R66 (d), (e)). The decoder reads no such command; see log entry 4. -/
def withLegalLen (max : Nat) (len : BitVec 4) (i : Instr) (body : State → State) (s : State) : State :=
  if len.toNat ≤ max then body s else raiseIllegal (encode i).cmd s

/-- The check of RST: NO_KEY before any key (60_exceptions.md R123). -/
def withKey (body : State → State) (s : State) : State :=
  match s.fsm with
  | .unkeyed => raise .noKey 0 s
  | .fresh => body s
  | .absorbing => body s
  | .finalized => body s

/-- The checks of UPD and FIN: NO_KEY before any key, SEQUENCE after FIN (60_exceptions.md R123 to R125). -/
def withOpenMessage (body : State → State) (s : State) : State :=
  match s.fsm with
  | .unkeyed => raise .noKey 0 s
  | .fresh => body s
  | .absorbing => body s
  | .finalized => raise .sequence 0 s

/-- Hardware reset (70_reset_and_hazards.md R140): every state element takes its reset value, from every state,
and no response is given. What the host still offers and what it has been given stay as they are. -/
def hardwareReset (s : State) : State :=
  { State.reset with inputs := s.inputs, responses := s.responses }

/-- The next input the host offers, and the state with it taken from the command port. -/
def takeInput (s : State) : Option (HostInput × State) :=
  match s.inputs with
  | [] => none
  | input :: rest => some (input, { s with inputs := rest })

/-- A transaction put where the engine takes its next input. -/
def offerFirst (c : Command) (s : State) : State :=
  { s with inputs := .command c :: s.inputs }

end Sys2Proof.Machine
end

