-- ==== Sys2Proof/Config.lean ====
section
/-! DEFINITION. The parameters the spec fixes (00_scope.md R5, R6) and the one it leaves open. -/

namespace Sys2Proof.Config

/-- C, the compression rounds for each block (00_scope.md R2, R5). -/
def cRounds : Nat := 2

/-- D, the finalisation rounds (00_scope.md R2, R5). -/
def dRounds : Nat := 4

/-- KEY_BYTES, the exact length of a key (00_scope.md R5). -/
def keyBytes : Nat := 16

/-- BLOCK_BYTES, the length of a block (00_scope.md R5). -/
def blockBytes : Nat := 8

/-- MAX_LEN, the data bytes one command can carry (00_scope.md R6). -/
def maxLen : Nat := 8

/-- How many cycles beyond one the engine takes for the k-th accepted command: a free value. -/
opaque extraCycles : Nat → Nat

/-- CMD_LATENCY, the OPEN parameter of 00_scope.md R6 and 70_reset_and_hazards.md R146: the cycles of the
k-th accepted command, finite and positive, and it may differ between commands. No rule depends on it, so no
other definition of the model uses it (log entry 5). -/
def cmdLatency (k : Nat) : Nat := extraCycles k + 1

end Sys2Proof.Config
end

