-- ==== Sys2Proof/Machine/Operands.lean ====
section
/-! DEFINITION. Operand bytes and the one byte order of the engine, little-endian (20_memory.md R43). -/

namespace Sys2Proof.Machine

/-- DBYTE(j) = OPD[8j+7 : 8j] (30_encoding.md R63). -/
def dbyte (opd : Word64) (j : Nat) : Byte := opd.extractLsb' (8 * j) 8

/-- DBYTE(0) to DBYTE(n-1), the first byte of the stream first (30_encoding.md R63). -/
def dataBytes (n : Nat) (opd : Word64) : List Byte := (List.range n).map (dbyte opd)

/-- The bytes at the byte positions i, i+1, and so on of a 64-bit word, each zero-extended before its shift. -/
def leFrom (i : Nat) : List Byte → Word64
  | [] => 0
  | b :: bs => (b.setWidth 64 <<< (8 * i)) ||| leFrom (i + 1) bs

/-- LE(b0, b1, ...) of 00_scope.md R10. -/
def le (bytes : List Byte) : Word64 := leFrom 0 bytes

/-- 20_memory.md R44: byte i of a serialised digest is (digest >> 8i) & 0xff, for i = 0 to 7. Host software. -/
def digestBytes (digest : Word64) : List Byte :=
  (List.range 8).map fun i => ((digest >>> (8 * i)) &&& 0xff).setWidth 8

end Sys2Proof.Machine
end

