-- ==== Sys2Proof/Machine/Permutation.lean ====
section
/-! DEFINITION. The datapath of 41_permutation.md: SipRound, compression, the final block, finalisation. -/

namespace Sys2Proof.Machine

/-- 00_scope.md R9: the left circular rotation by n bits, for 0 < n < 64. -/
def rotl64 (x : Word64) (n : Nat) : Word64 := (x <<< n) ||| (x >>> (64 - n))

/-- SipRound, the eight steps of 41_permutation.md R91 in their order. -/
def sipRound (v : Lanes) : Lanes :=
  let v := { v with v0 := add64 v.v0 v.v1, v2 := add64 v.v2 v.v3 }
  let v := { v with v1 := rotl64 v.v1 13, v3 := rotl64 v.v3 16 }
  let v := { v with v1 := xor64 v.v1 v.v0, v3 := xor64 v.v3 v.v2 }
  let v := { v with v0 := rotl64 v.v0 32 }
  let v := { v with v2 := add64 v.v2 v.v1, v0 := add64 v.v0 v.v3 }
  let v := { v with v1 := rotl64 v.v1 17, v3 := rotl64 v.v3 21 }
  let v := { v with v1 := xor64 v.v1 v.v2, v3 := xor64 v.v3 v.v0 }
  { v with v2 := rotl64 v.v2 32 }

/-- SipRound applied the given number of times. -/
def sipRounds : Nat → Lanes → Lanes
  | 0, v => v
  | k + 1, v => sipRounds k (sipRound v)

/-- Compress(m) of 41_permutation.md R92, with C rounds. -/
def compress (m : Word64) (v : Lanes) : Lanes :=
  let w := sipRounds Config.cRounds { v with v3 := xor64 v.v3 m }
  { w with v0 := xor64 w.v0 m }

/-- The final block of 41_permutation.md R93 for a tail of at most 7 bytes and a total-length byte. -/
def finalWord (tail : List Byte) (totalLen : Byte) : Word64 :=
  (totalLen.setWidth 64 <<< 56) ||| le tail

/-- The finalisation of 41_permutation.md R94 on the lanes, from the final block on: Compress(m), v2 ^= 0xff and
D rounds. -/
def finalLanes (m : Word64) (v : Lanes) : Lanes :=
  let w := compress m v
  sipRounds Config.dRounds { w with v2 := xor64 w.v2 0x00000000000000ff }

/-- The digest of 41_permutation.md R94: the exclusive or of the four lanes. -/
def digest (v : Lanes) : Word64 := xor64 (xor64 (xor64 v.v0 v.v1) v.v2) v.v3

/-- The message tail: the BUF_CNT bytes absorbed and not yet compressed, oldest first (10_state.md R24). -/
def tailBytes (s : State) : List Byte := s.buf.toList.take s.bufCnt.val

/-- FinalBlock() of 41_permutation.md R93. -/
def finalBlock (s : State) : Word64 := finalWord (tailBytes s) s.totalLen

end Sys2Proof.Machine
end

