-- ==== Sys2Proof/Machine/Key.lean ====
section
/-! DEFINITION. Key loading and lane initialisation (40_key.md): LaneInit, KEYB, KEYC. -/

namespace Sys2Proof.Machine

/-- The lanes that LaneInit sets from the key halves (40_key.md R80). -/
def initLanes (k0 k1 : Word64) : Lanes where
  v0 := xor64 0x736f6d6570736575 k0
  v1 := xor64 0x646f72616e646f6d k1
  v2 := xor64 0x6c7967656e657261 k0
  v3 := xor64 0x7465646279746573 k1

/-- LaneInit() of 40_key.md R80. It does not write FSM, and it leaves the BUF bytes. -/
def laneInit (s : State) : State :=
  { s with lanes := initLanes s.k0 s.k1, bufCnt := 0, totalLen := 0 }

/-- One pass of KEYB's loop (40_key.md R81): the byte is stored while KS_CNT < 16, and the count saturates at 17. -/
def stageByte (s : State) (b : Byte) : State :=
  { s with
    ks := if h : s.ksCnt.val < 16 then s.ks.set s.ksCnt.val b h else s.ks
    ksCnt := ⟨min (s.ksCnt.val + 1) 17, by omega⟩ }

/-- KEYB's loop over its data bytes (40_key.md R81). -/
def stageBytes (s : State) (bytes : List Byte) : State := bytes.foldl stageByte s

/-- KEYB (40_key.md R81). -/
def execKeyb (n : BitVec 4) (opd : Word64) (s : State) : Host.Outcome State Fault Refusal :=
  .next (withLegalLen Config.maxLen n (.keyb n opd)
    (fun s => respond .ok 0 (stageBytes s (dataBytes n.toNat opd))) s)

/-- The key halves read little-endian from the staging bytes (10_state.md R22, 40_key.md R82). -/
def commitKey (s : State) : State :=
  { s with k0 := le (s.ks.toList.take 8), k1 := le (s.ks.toList.drop 8) }

/-- KEYC (40_key.md R82): the count is cleared first, on success and on failure. -/
def execKeyc (s : State) : Host.Outcome State Fault Refusal :=
  let cleared := { s with ksCnt := 0 }
  .next (if s.ksCnt.val = Config.keyBytes then
    respond .ok 0 { laneInit (commitKey cleared) with fsm := .fresh }
  else
    raise .invalidKeyLength (BitVec.ofNat 64 s.ksCnt.val) cleared)

end Sys2Proof.Machine
end

