-- ==== Sys2Proof/Machine/Hasher.lean ====
section
/-! DEFINITION. The message commands (42_hasher.md): RST, UPD, FIN. -/

namespace Sys2Proof.Machine

/-- RST (42_hasher.md R100): the lanes from the current key; the key and the key staging stay. -/
def execRst (s : State) : Host.Outcome State Fault Refusal :=
  .next (withKey (fun s => respond .ok 0 { laneInit s with fsm := .fresh }) s)

/-- One pass of UPD's loop (42_hasher.md R101): the byte goes to BUF[BUF_CNT], and when the count reaches 8 the
block is compressed at once and the count returns to 0. -/
def absorbByte (s : State) (b : Byte) : State :=
  let buf := s.buf.set s.bufCnt.val b s.bufCnt.isLt
  { s with
    buf := buf
    bufCnt := if h : s.bufCnt.val + 1 < Config.blockBytes then ⟨s.bufCnt.val + 1, h⟩ else 0
    lanes := if s.bufCnt.val + 1 < Config.blockBytes then s.lanes else compress (le buf.toList) s.lanes }

/-- UPD's loop over its data bytes (42_hasher.md R101). -/
def absorbBytes (s : State) (bytes : List Byte) : State := bytes.foldl absorbByte s

/-- The writes of a UPD that passes its checks (42_hasher.md R101). -/
def update (n : BitVec 4) (opd : Word64) (s : State) : State :=
  { absorbBytes s (dataBytes n.toNat opd) with
    totalLen := add8 s.totalLen (n.setWidth 8), fsm := .absorbing }

/-- UPD (42_hasher.md R101). -/
def execUpd (n : BitVec 4) (opd : Word64) (s : State) : Host.Outcome State Fault Refusal :=
  .next (withLegalLen Config.maxLen n (.upd n opd)
    (withOpenMessage fun s => respond .ok 0 (update n opd s)) s)

/-- The writes of a FIN that passes its checks (42_hasher.md R102): Finalize() writes the lanes, FSM follows, and
BUF, BUF_CNT and TOTAL_LEN stay. -/
def finalize (s : State) : State :=
  { s with lanes := finalLanes (finalBlock s) s.lanes, fsm := .finalized }

/-- FIN (42_hasher.md R102): RDATA is the digest, which no register keeps. -/
def execFin (s : State) : Host.Outcome State Fault Refusal :=
  .next (withOpenMessage (fun s => respond .ok (digest (finalize s).lanes) (finalize s)) s)

end Sys2Proof.Machine
end

