-- ==== Sys2Proof/Machine/Flags.lean ====
section
/-! DEFINITION. The engine has no condition flags (10_state.md R27). This file gives what stands in their place:
the numbers of the life-cycle states and response codes, and the status word. -/

namespace Sys2Proof.Machine

/-- The encoding of FSM (10_state.md R26). -/
def fsmBits : Fsm → BitVec 2
  | .unkeyed => 0
  | .fresh => 1
  | .absorbing => 2
  | .finalized => 3

/-- The encoding of RESP (60_exceptions.md R120). -/
def respBits : RespCode → BitVec 4
  | .ok => 0
  | .illegalCmd => 1
  | .invalidKeyLength => 2
  | .noKey => 3
  | .sequence => 4

/-- The status word of 43_query.md R111. -/
def statusWord (s : State) : Word64 :=
  (fsmBits s.fsm).setWidth 64
    ||| (BitVec.ofNat 64 s.bufCnt.val <<< 4)
    ||| (s.totalLen.setWidth 64 <<< 8)
    ||| (BitVec.ofNat 64 s.ksCnt.val <<< 16)
    ||| (BitVec.ofNat 64 Config.cRounds <<< 24)
    ||| (BitVec.ofNat 64 Config.dRounds <<< 28)

end Sys2Proof.Machine
end

