-- ==== Sys2Proof/Machine/Query.lean ====
section
/-! DEFINITION. The commands that change no state (43_query.md): NOP, STAT, IDQ. -/

namespace Sys2Proof.Machine

/-- NOP (43_query.md R110). -/
def execNop (s : State) : Host.Outcome State Fault Refusal := .next (respond .ok 0 s)

/-- STAT (43_query.md R111). -/
def execStat (s : State) : Host.Outcome State Fault Refusal := .next (respond .ok (statusWord s) s)

/-- The identifier words of 43_query.md R112: "SipHash-", then "2-4" and five zero bytes. -/
def identifierWord (i : BitVec 4) : Word64 :=
  if i = 0 then 0x2d68736148706953 else 0x0000000000342d32

/-- IDQ (43_query.md R112). -/
def execIdq (i : BitVec 4) (s : State) : Host.Outcome State Fault Refusal :=
  .next (withLegalLen 1 i (.idq i) (respond .ok (identifierWord i)) s)

end Sys2Proof.Machine
end

