-- ==== Sys2Proof/Machine/Dispatch.lean ====
section
/-! DEFINITION. The dispatch: one arm for each command, each a direct call of its meaning (30_encoding.md R65). -/

namespace Sys2Proof.Machine

/-- What a decoded command does. -/
def exec (i : Instr) (s : State) : Host.Outcome State Fault Refusal :=
  match i with
  | .nop => Sys2Proof.Machine.execNop s
  | .keyb n opd => Sys2Proof.Machine.execKeyb n opd s
  | .keyc => Sys2Proof.Machine.execKeyc s
  | .rst => Sys2Proof.Machine.execRst s
  | .upd n opd => Sys2Proof.Machine.execUpd n opd s
  | .fin => Sys2Proof.Machine.execFin s
  | .stat => Sys2Proof.Machine.execStat s
  | .idq index => Sys2Proof.Machine.execIdq index s

end Sys2Proof.Machine
end

