-- ==== Sys2Proof/Machine/Step.lean ====
section
/-! DEFINITION. One step of the machine: the engine takes the host's next input and finishes with it. -/

namespace Sys2Proof.Machine

/-- Accepting one transaction (30_encoding.md R65): an illegal word gets ILLEGAL_CMD, any other its meaning. -/
def accept (c : Command) (s : State) : Host.Outcome State Fault Refusal :=
  match decode c with
  | .ok i => exec i s
  | .error _ => .next (raiseIllegal c.cmd s)

/-- One step (00_scope.md R7, 20_memory.md R49): the next input is taken and finished as one indivisible step.
A hardware reset replaces the step of the command it cuts off (70_reset_and_hazards.md R140). With no input the
engine idles and keeps its state (60_exceptions.md R136). -/
def step (s : State) : Host.Outcome State Fault Refusal :=
  match takeInput s with
  | none => .next s
  | some (.command c, t) => accept c t
  | some (.hardwareReset _, t) => .next (hardwareReset t)

/-- The state with the table word's transaction as the next input, so that `step` runs exactly it. -/
def State.withFetchWord (s : State) (nbits w : Nat) : State := offerFirst (tableCommand nbits w) s

end Sys2Proof.Machine
end

