-- ==== Sys2Proof/Machine/Assembler.lean ====
section
/-! DEFINITION. The assembly notation of 30_encoding.md R70 and R71: host software that makes transactions. -/

namespace Sys2Proof.Machine

/-- One line of a command stream: the eight commands, the raw transaction, and the pseudo-instructions. -/
inductive AsmLine where
  | nop
  | keyb (n : Nat) (d : Word64)
  | keyc
  | rst
  | upd (n : Nat) (d : Word64)
  | fin
  | stat
  | idq (i : Nat)
  | raw (c : CmdWord) (d : Word64)
  | key (k0 k1 : Word64)
  | absorb (bytes : List Byte)
  | zeros (n : Nat)
  | hash (bytes : List Byte)
deriving DecidableEq, Repr

/-- The assembler takes n ≤ 8 and a d with no set bit at or above bit 8n (30_encoding.md R70). -/
def dataFits (n : Nat) (d : Word64) : Bool := decide (n ≤ 8) && (d >>> (8 * n) == 0)

/-- The UPD commands of ABSORB (30_encoding.md R71). -/
def absorbInstrs (bytes : List Byte) : List Instr :=
  let n := bytes.length
  (List.range (n / 8)).map (fun i => .upd 8 (le ((bytes.drop (8 * i)).take 8)))
    ++ (if 0 < n % 8 then [.upd (BitVec.ofNat 4 (n % 8)) (le (bytes.drop (8 * (n / 8))))] else [])

/-- The UPD commands of ZEROS (30_encoding.md R71). -/
def zerosInstrs (n : Nat) : List Instr :=
  List.replicate (n / 8) (.upd 8 0) ++ (if 0 < n % 8 then [.upd (BitVec.ofNat 4 (n % 8)) 0] else [])

/-- The commands of KEY (30_encoding.md R71). -/
def keyInstrs (k0 k1 : Word64) : List Instr := [.keyb 8 k0, .keyb 8 k1, .keyc]

/-- The commands of HASH (30_encoding.md R71). -/
def hashInstrs (bytes : List Byte) : List Instr := .rst :: absorbInstrs bytes ++ [.fin]

/-- The transactions of a line, or none where the assembler refuses it (30_encoding.md R70, R71). -/
def assemble : AsmLine → Option (List Command)
  | .nop => some [encode .nop]
  | .keyb n d => if dataFits n d then some [encode (.keyb (BitVec.ofNat 4 n) d)] else none
  | .keyc => some [encode .keyc]
  | .rst => some [encode .rst]
  | .upd n d => if dataFits n d then some [encode (.upd (BitVec.ofNat 4 n) d)] else none
  | .fin => some [encode .fin]
  | .stat => some [encode .stat]
  | .idq i => if i ≤ 1 then some [encode (.idq (BitVec.ofNat 4 i))] else none
  | .raw c d => some [⟨c, d⟩]
  | .key k0 k1 => some ((keyInstrs k0 k1).map encode)
  | .absorb bytes => some ((absorbInstrs bytes).map encode)
  | .zeros n => some ((zerosInstrs n).map encode)
  | .hash bytes => some ((hashInstrs bytes).map encode)

/-- A decimal digit. -/
def decDigit (c : Char) : Option Nat :=
  if 48 ≤ c.toNat ∧ c.toNat ≤ 57 then some (c.toNat - 48) else none

/-- A hexadecimal digit, in either case. -/
def hexDigit (c : Char) : Option Nat :=
  if 97 ≤ c.toNat ∧ c.toNat ≤ 102 then some (c.toNat - 87)
  else if 65 ≤ c.toNat ∧ c.toNat ≤ 70 then some (c.toNat - 55)
  else decDigit c

/-- The digits of a number, the most significant first, added to what has been read. -/
def digitsFrom (base : Nat) (digit : Char → Option Nat) (read : Nat) : List Char → Option Nat
  | [] => some read
  | c :: cs =>
    match digit c with
    | some d => digitsFrom base digit (base * read + d) cs
    | none => none

/-- A decimal number of at least one digit. -/
def parseDec : List Char → Option Nat
  | [] => none
  | cs => digitsFrom 10 decDigit 0 cs

/-- A hexadecimal number below 2^bits, written 0x and at least one digit. -/
def parseHex (bits : Nat) : List Char → Option Nat
  | '0' :: 'x' :: c :: cs =>
    match digitsFrom 16 hexDigit 0 (c :: cs) with
    | some v => if v < 2 ^ bits then some v else none
    | none => none
  | _ => none

/-- A line split at spaces, tabs and commas, up to the comment's semicolon. `word` is the token being read,
its last character first. -/
def tokensFrom (word : List Char) : List Char → List (List Char)
  | [] => if word.isEmpty then [] else [word.reverse]
  | c :: cs =>
    if c = ';' then (if word.isEmpty then [] else [word.reverse])
    else if c = ' ' ∨ c = '\t' ∨ c = ',' then
      (if word.isEmpty then tokensFrom [] cs else word.reverse :: tokensFrom [] cs)
    else tokensFrom (c :: word) cs

/-- The hexadecimal byte operands of ABSORB and HASH. -/
def parseBytes : List (List Char) → Option (List Byte)
  | [] => some []
  | t :: ts =>
    match parseHex 8 t, parseBytes ts with
    | some b, some bs => some (BitVec.ofNat 8 b :: bs)
    | _, _ => none

/-- A line with the operands n and d of KEYB and UPD. -/
def parseData (make : Nat → Word64 → AsmLine) (n d : List Char) : Option AsmLine :=
  match parseDec n, parseHex 64 d with
  | some n, some d => some (make n (BitVec.ofNat 64 d))
  | _, _ => none

/-- The line a list of tokens writes: a mnemonic and its operands (30_encoding.md R70, R71). -/
def parseTokens : List (List Char) → Option AsmLine
  | [['N', 'O', 'P']] => some .nop
  | [['K', 'E', 'Y', 'C']] => some .keyc
  | [['R', 'S', 'T']] => some .rst
  | [['F', 'I', 'N']] => some .fin
  | [['S', 'T', 'A', 'T']] => some .stat
  | [['K', 'E', 'Y', 'B'], n, d] => parseData .keyb n d
  | [['U', 'P', 'D'], n, d] => parseData .upd n d
  | [['I', 'D', 'Q'], i] => (parseDec i).map .idq
  | [['.', 'c', 'm', 'd'], c, d] =>
    match parseHex 16 c, parseHex 64 d with
    | some c, some d => some (.raw (BitVec.ofNat 16 c) (BitVec.ofNat 64 d))
    | _, _ => none
  | [['K', 'E', 'Y'], k0, k1] =>
    match parseHex 64 k0, parseHex 64 k1 with
    | some k0, some k1 => some (.key (BitVec.ofNat 64 k0) (BitVec.ofNat 64 k1))
    | _, _ => none
  | ['A', 'B', 'S', 'O', 'R', 'B'] :: bytes => (parseBytes bytes).map .absorb
  | [['Z', 'E', 'R', 'O', 'S'], n] => (parseDec n).map .zeros
  | ['H', 'A', 'S', 'H'] :: bytes => (parseBytes bytes).map .hash
  | _ => none

/-- The transactions of one line of text; a line with no token gives none of them (log entry 6). -/
def assembleText (line : List Char) : Option (List Command) :=
  match tokensFrom [] line with
  | [] => some []
  | tokens =>
    match parseTokens tokens with
    | some l => assemble l
    | none => none

/-- The transactions of a text, line by line in order; none where one line is refused. -/
def assembleLines : List (List Char) → Option (List Command)
  | [] => some []
  | line :: lines =>
    match assembleText line, assembleLines lines with
    | some cs, some more => some (cs ++ more)
    | _, _ => none

/-- A hexadecimal digit as listings write it. -/
def hexChar (d : Nat) : Char := if d < 10 then Char.ofNat (48 + d) else Char.ofNat (87 + d)

/-- The lowest `k` hexadecimal digits of a number, the most significant first. -/
def hexChars : Nat → Nat → List Char
  | 0, _ => []
  | k + 1, v => hexChars k (v / 16) ++ [hexChar (v % 16)]

/-- The listing of a transaction, CMD=0xhhhh OPD=0xhhhhhhhhhhhhhhhh (30_encoding.md R70). -/
def listing (c : Command) : String :=
  "CMD=0x" ++ String.ofList (hexChars 4 c.cmd.toNat) ++ " OPD=0x" ++ String.ofList (hexChars 16 c.opd.toNat)

end Sys2Proof.Machine
end

