-- ==== Sys2Proof/Machine/Reference.lean ====
section
/-! DEFINITION. The function the digest is (42_hasher.md R104), on whole messages and without any engine state. -/

namespace Sys2Proof.Machine

/-- The first ⌊L/8⌋ blocks of a message, compressed in order (42_hasher.md R104). -/
def absorbBlocks (v : Lanes) (m : List Byte) : Lanes :=
  (List.range (m.length / 8)).foldl (fun v i => compress (le ((m.drop (8 * i)).take 8)) v) v

/-- The last L mod 8 bytes of a message (42_hasher.md R104). -/
def restBytes (m : List Byte) : List Byte := m.drop (m.length - m.length % 8)

/-- The final block of a message (42_hasher.md R104). -/
def finalBlockOf (m : List Byte) : Word64 :=
  (BitVec.ofNat 64 (m.length % 256) <<< 56) ||| le (restBytes m)

/-- The hash of a message under the two key halves. -/
def sipHashHalves (k0 k1 : Word64) (m : List Byte) : Word64 :=
  digest (finalLanes (finalBlockOf m) (absorbBlocks (initLanes k0 k1) m))

/-- SipHash24(k, M) of 42_hasher.md R104, for the 16 key bytes k. -/
def sipHash24 (k : Vector Byte 16) (m : List Byte) : Word64 :=
  sipHashHalves (le (k.toList.take 8)) (le (k.toList.drop 8)) m

end Sys2Proof.Machine
end

