-- ==== Sys2Proof/Safety.lean ====
section
/-! DEFINITION. What claims speak of: the invariants of 10_state.md R29, what the host can observe (R31), and runs
over a list of commands (70_reset_and_hazards.md R148). -/

namespace Sys2Proof.Safety

open Sys2Proof.Machine

/-- The engine holds the message m under its key: the lanes have absorbed m's full blocks from LaneInit on, BUF
holds the bytes left over, and TOTAL_LEN is m's length modulo 256 (10_state.md R29 (d)). -/
structure Holds (s : State) (m : List Byte) : Prop where
  lanes    : s.lanes = absorbBlocks (initLanes s.k0 s.k1) m
  tail     : tailBytes s = restBytes m
  totalLen : s.totalLen = BitVec.ofNat 8 m.length

/-- The invariants of 10_state.md R29; (a) and (b) hold by the types of `bufCnt` and `ksCnt`. A FRESH engine
holds the empty message, which gives (c). -/
structure Inv (s : State) : Prop where
  bufCount   : s.bufCnt.val ≤ 7
  stageCount : s.ksCnt.val ≤ 17
  fresh      : s.fsm = .fresh → s.bufCnt = 0 ∧ s.totalLen = 0 ∧ Holds s []
  absorbing  : s.fsm = .absorbing → ∃ m, Holds s m
  unkeyed    : s.fsm = .unkeyed → s.k0 = 0 ∧ s.k1 = 0

/-- The state elements the host can observe, through STAT (10_state.md R31). -/
structure View where
  fsm      : Fsm
  bufCnt   : Fin 8
  totalLen : Byte
  ksCnt    : Fin 18
deriving DecidableEq, Repr

/-- What STAT shows of a state. -/
def view (s : State) : View := ⟨s.fsm, s.bufCnt, s.totalLen, s.ksCnt⟩

/-- A state whose host offers these transactions and nothing after them. -/
def offering (cs : List Command) (s : State) : State := { s with inputs := cs.map .command }

/-- The state after the engine has finished these transactions, one step for each, or none where a step stops. -/
def after (s : State) : List Command → Option State
  | [] => some s
  | c :: cs =>
    match accept c s with
    | .next t => after t cs
    | .fault _ => none
    | .refused _ => none

/-- UPD commands, each by its LEN and OPD. -/
abbrev Pieces := List (BitVec 4 × Word64)

/-- The commands of a list of pieces. -/
def updates (ps : Pieces) : List Command := ps.map fun p => encode (.upd p.1 p.2)

/-- Every piece is a legal UPD (30_encoding.md R62). -/
def Legal (ps : Pieces) : Prop := ∀ p ∈ ps, p.1.toNat ≤ 8

/-- The data stream of the pieces: the DBYTEs of each command, in order (42_hasher.md R103). -/
def stream (ps : Pieces) : List Byte := ps.flatMap fun p => dataBytes p.1.toNat p.2

/-- The words of one opcode: with RSV = 0 and LEN at most `max`, accepting them runs the command `make` of LEN and
OPD; any other word of that opcode gets ILLEGAL_CMD with RDATA = zext_64(CMD), and changes no state element
(30_encoding.md R65, R66; 60_exceptions.md R121). -/
def EncodedAs (op : BitVec 8) (max : Nat) (make : BitVec 4 → Word64 → Instr) : Prop :=
  ∀ (c : Command) (s : State), c.cmd.extractLsb' 0 8 = op →
    accept c s =
      if c.cmd.extractLsb' 12 4 = 0 ∧ (c.cmd.extractLsb' 8 4).toNat ≤ max then
        exec (make (c.cmd.extractLsb' 8 4) c.opd) s
      else .next { s with responses := s.responses ++ [⟨.illegalCmd, c.cmd.setWidth 64⟩] }

end Sys2Proof.Safety
end

