-- ==== Sys2Proof/Certificates/Slice0/Obligations.lean ====
section
/-! DEFINITION. The statements for the provers, in the order of the spec's files. -/

open Sys2Proof Sys2Proof.Machine Sys2Proof.Safety

/-! Primitives and byte order -/

/-- 00_scope.md R10: byte j of LE(b0, ..., b(k-1)) is bj for j < k and 0 above; for k = 0 it is 0. -/
def Obligations.LittleEndianWordHoldsEachByte : Prop :=
  ∀ bytes : List Byte, bytes.length ≤ 8 →
    (∀ (j : Nat) (h : j < bytes.length), (le bytes).extractLsb' (8 * j) 8 = bytes[j]) ∧
    (∀ j : Nat, bytes.length ≤ j → j < 8 → (le bytes).extractLsb' (8 * j) 8 = 0)

/-- 20_memory.md R44: byte i of a serialised digest is bits 8i+7 : 8i, and LE reads the digest back. -/
def Obligations.DigestSerialisesLittleEndian : Prop :=
  ∀ d : Word64, (digestBytes d).length = 8 ∧ le (digestBytes d) = d ∧
    ∀ i : Nat, i < 8 → (digestBytes d)[i]? = some (d.extractLsb' (8 * i) 8)

/-! State and reset -/

/-- 10_state.md R30: the value of every state element after hardware reset, and the status word there. -/
def Obligations.ResetStateHoldsZeros : Prop :=
  State.reset.fsm = .unkeyed ∧ fsmBits State.reset.fsm = 0 ∧ State.reset.k0 = 0 ∧ State.reset.k1 = 0 ∧
  (∀ (i : Nat) (h : i < 16), State.reset.ks[i] = 0) ∧ State.reset.ksCnt = 0 ∧
  State.reset.lanes = ⟨0, 0, 0, 0⟩ ∧ (∀ (i : Nat) (h : i < 8), State.reset.buf[i] = 0) ∧
  State.reset.bufCnt = 0 ∧ State.reset.totalLen = 0 ∧ statusWord State.reset = 0x0000000042000000

/-- 70_reset_and_hazards.md R140: a hardware reset, from every state and whatever command it cuts off, gives no
response and sets every state element. That the offered inputs and the responses given earlier stay is the model's
choice (DESIGN CHOICE, log entries 1 and 2), so the statement is derived and not the rule's own words. -/
def Obligations.HardwareResetClearsEveryElement : Prop :=
  ∀ (s : State) (cut : Option Command) (rest : List HostInput), s.inputs = .hardwareReset cut :: rest →
    ∃ t, step s = .next t ∧ t.responses = s.responses ∧ t.inputs = rest ∧
      t.fsm = .unkeyed ∧ t.k0 = 0 ∧ t.k1 = 0 ∧ t.ksCnt = 0 ∧ t.lanes = ⟨0, 0, 0, 0⟩ ∧ t.bufCnt = 0 ∧
      t.totalLen = 0 ∧ (∀ (i : Nat) (h : i < 16), t.ks[i] = 0) ∧ ∀ (i : Nat) (h : i < 8), t.buf[i] = 0

/-- The invariants that 10_state.md infers in section 7, at hardware reset. -/
def Obligations.ResetStateMeetsTheInvariants : Prop := Inv State.reset

/-- The invariants that 10_state.md infers in section 7 ("At every quiescent point all of the following hold"):
every step keeps them, from every state that meets them, whether or not a run reaches it. -/
def Obligations.EveryStepKeepsTheInvariants : Prop :=
  ∀ s t : State, Inv s → step s = .next t → Inv t

/-- 10_state.md R26: the number of each life-cycle state, and the whole transition table, for every transaction
and for hardware reset. -/
def Obligations.LifeCycleFollowsTheTable : Prop :=
  (fsmBits .unkeyed = 0 ∧ fsmBits .fresh = 1 ∧ fsmBits .absorbing = 2 ∧ fsmBits .finalized = 3) ∧
  (∀ (s : State) (cut : Option Command) (rest : List HostInput), s.inputs = .hardwareReset cut :: rest →
    ∃ t, step s = .next t ∧ t.fsm = .unkeyed) ∧
  ∀ (c : Command) (s : State), ∃ t, accept c s = .next t ∧
    t.fsm =
      match decode c with
      | .error _ => s.fsm
      | .ok .nop => s.fsm
      | .ok (.keyb _ _) => s.fsm
      | .ok .stat => s.fsm
      | .ok (.idq _) => s.fsm
      | .ok .keyc => if s.ksCnt.val = 16 then .fresh else s.fsm
      | .ok .rst => if s.fsm = .unkeyed then .unkeyed else .fresh
      | .ok (.upd _ _) => if s.fsm = .fresh ∨ s.fsm = .absorbing then .absorbing else s.fsm
      | .ok .fin => if s.fsm = .fresh ∨ s.fsm = .absorbing then .finalized else s.fsm

/-- 10_state.md R31: two engines that STAT cannot tell apart give the same responses to every sequence of
transactions without a FIN, and STAT cannot tell them apart after it; whatever their keys, lanes and bytes are. -/
def Obligations.ResponsesRevealOnlyTheStatusFields : Prop :=
  ∀ (cs : List Command) (s s' : State), view s = view s' → (∀ c ∈ cs, decode c ≠ .ok .fin) →
    ∃ (t t' : State) (rs : List Response), after s cs = some t ∧ after s' cs = some t' ∧
      t.responses = s.responses ++ rs ∧ t'.responses = s'.responses ++ rs ∧ view t = view t'

/-- 10_state.md R31: what a FIN tells of two engines that STAT cannot tell apart is the digest of each and nothing
more. They answer one code; where it is OK, RDATA is the digest of the engine's own lanes and final block, so equal
digests give equal responses; where it is not OK the responses are equal; and STAT cannot tell them apart after it. -/
def Obligations.FinRevealsOnlyTheDigest : Prop :=
  ∀ s s' : State, view s = view s' →
    ∃ (t t' : State) (r r' : Response), exec .fin s = .next t ∧ exec .fin s' = .next t' ∧
      t.responses = s.responses ++ [r] ∧ t'.responses = s'.responses ++ [r'] ∧ r.code = r'.code ∧
      (r.code = .ok → r.rdata = digest (finalLanes (finalBlock s) s.lanes) ∧
        r'.rdata = digest (finalLanes (finalBlock s') s'.lanes)) ∧
      (r.code ≠ .ok → r = r') ∧ view t = view t'

/-! Steps, order and the host -/

/-- 30_encoding.md R65: when the next input is a transaction that decodes to a command, the step is that command's
meaning in the state with the transaction taken from the port. -/
def Obligations.StepRunsTheDecodedCommand : Prop :=
  ∀ (s : State) (c : Command) (rest : List HostInput) (i : Instr),
    s.inputs = .command c :: rest → decode c = .ok i → step s = exec i { s with inputs := rest }

/-- 60_exceptions.md R136: with nothing offered the engine idles and keeps all its state. -/
def Obligations.IdleEngineKeepsItsState : Prop :=
  ∀ s : State, s.inputs = [] → step s = .next s

/-- 60_exceptions.md R127: no state and no input makes the engine stop. -/
def Obligations.StepAlwaysAnswersANextState : Prop :=
  ∀ s : State, ∃ t, step s = .next t

/-- 20_memory.md R49: the offered transactions are finished one a step, in the order offered, with exactly one
response each in the same order; after k steps the first k have their responses, the others are still to come, and
the state is what the first k alone give, so no later one has had an effect. -/
def Obligations.OneResponsePerCommandInOrder : Prop :=
  ∀ (s : State) (cs : List Command), ∃ rs : List Response, rs.length = cs.length ∧
    ∀ k : Nat, k ≤ cs.length → ∃ t : State,
      Host.Core.run Sys2Proof.core k (offering cs s) = .next t ∧
      t.inputs = (cs.drop k).map .command ∧ t.responses = s.responses ++ rs.take k ∧
      after (offering [] s) (cs.take k) = some { t with inputs := [] }

/-- 60_exceptions.md R128, 10_state.md R27: no command reads the responses given before it. -/
def Obligations.EarlierResponsesChangeNothing : Prop :=
  ∀ (i : Instr) (s : State) (earlier : List Response),
    ∃ (t : State) (r : Response), exec i s = .next t ∧ t.responses = s.responses ++ [r] ∧
      exec i { s with responses := earlier } = .next { t with responses := earlier ++ [r] }

/-- 20_memory.md R48: NOP, STAT and IDQ change no state element, and running one again gives the same response. -/
def Obligations.QueriesAreIdempotent : Prop :=
  ∀ (i : Instr) (s : State), i = .nop ∨ i = .stat ∨ (∃ index, i = .idq index) →
    ∃ r : Response, exec i s = .next { s with responses := s.responses ++ [r] } ∧
      exec i { s with responses := s.responses ++ [r] } = .next { s with responses := s.responses ++ [r, r] }

/-- The frame of every command (the 'State written' lines of 40_key.md R81, R82, 42_hasher.md R100 to R102 and
43_query.md R110 to R112): the elements named may change, every other element and the offered inputs stay. -/
def Obligations.CommandsChangeOnlyTheirElements : Prop :=
  ∀ (i : Instr) (s : State), ∃ t, exec i s = .next t ∧
    match i with
    | .nop => t = { s with responses := t.responses }
    | .keyb _ _ => t = { s with ks := t.ks, ksCnt := t.ksCnt, responses := t.responses }
    | .keyc => t = { s with lanes := t.lanes, k0 := t.k0, k1 := t.k1, ksCnt := t.ksCnt, bufCnt := t.bufCnt,
                            totalLen := t.totalLen, fsm := t.fsm, responses := t.responses }
    | .rst => t = { s with lanes := t.lanes, bufCnt := t.bufCnt, totalLen := t.totalLen, fsm := t.fsm,
                           responses := t.responses }
    | .upd _ _ => t = { s with lanes := t.lanes, buf := t.buf, bufCnt := t.bufCnt, totalLen := t.totalLen,
                               fsm := t.fsm, responses := t.responses }
    | .fin => t = { s with lanes := t.lanes, fsm := t.fsm, responses := t.responses }
    | .stat => t = { s with responses := t.responses }
    | .idq _ => t = { s with responses := t.responses }

/-! Encoding -/

/-- 30_encoding.md R64: which words of which pattern decode to each command, for every operand. -/
def Obligations.OpcodeMapDecodesEachRow : Prop :=
  ∀ (w : CmdWord) (opd : Word64),
    (decode ⟨w, opd⟩ = .ok .nop ↔ w &&& 0xFFFF = 0x0000) ∧
    (∀ n d, decode ⟨w, opd⟩ = .ok (.keyb n d) ↔
      w &&& 0xF0FF = 0x0001 ∧ n = w.extractLsb' 8 4 ∧ n.toNat ≤ 8 ∧ d = opd) ∧
    (decode ⟨w, opd⟩ = .ok .keyc ↔ w &&& 0xFFFF = 0x0002) ∧
    (decode ⟨w, opd⟩ = .ok .rst ↔ w &&& 0xFFFF = 0x0003) ∧
    (∀ n d, decode ⟨w, opd⟩ = .ok (.upd n d) ↔
      w &&& 0xF0FF = 0x0004 ∧ n = w.extractLsb' 8 4 ∧ n.toNat ≤ 8 ∧ d = opd) ∧
    (decode ⟨w, opd⟩ = .ok .fin ↔ w &&& 0xFFFF = 0x0005) ∧
    (decode ⟨w, opd⟩ = .ok .stat ↔ w &&& 0xFFFF = 0x0006) ∧
    (∀ index, decode ⟨w, opd⟩ = .ok (.idq index) ↔ w &&& 0xFEFF = 0x0007 ∧ index = w.extractLsb' 8 4)

/-- 30_encoding.md section 3 ("Exactly 25 of the 65 536 command words are legal", an inference from its table): the
words that decode, whatever the operand, are 25. -/
def Obligations.ExactlyTwentyFiveLegalWords : Prop :=
  ∃ words : List CmdWord, words.length = 25 ∧ words.Nodup ∧
    ∀ (w : CmdWord) (opd : Word64), w ∈ words ↔ ∃ i, decode ⟨w, opd⟩ = .ok i

/-- 30_encoding.md R65: Legal(CMD), written out on the fields of CMD alone, decides for every operand and in every
state whether the engine dispatches to the meaning of a command of that OP or answers ILLEGAL_CMD. -/
def Obligations.LegalWordsAreDispatched : Prop :=
  ∀ (c : Command) (s : State),
    if c.cmd.extractLsb' 12 4 = 0 ∧
        (((c.cmd.extractLsb' 0 8).toNat ∈ [0x00, 0x02, 0x03, 0x05, 0x06] ∧ c.cmd.extractLsb' 8 4 = 0) ∨
          ((c.cmd.extractLsb' 0 8).toNat ∈ [0x01, 0x04] ∧ (c.cmd.extractLsb' 8 4).toNat ≤ 8) ∨
          ((c.cmd.extractLsb' 0 8).toNat = 0x07 ∧ (c.cmd.extractLsb' 8 4).toNat ≤ 1)) then
      legal c.cmd = true ∧ ∃ i, decode c = .ok i ∧ accept c s = exec i s ∧
        (encode i).cmd.extractLsb' 0 8 = c.cmd.extractLsb' 0 8
    else
      legal c.cmd = false ∧
        accept c s = .next { s with responses := s.responses ++ [⟨.illegalCmd, c.cmd.setWidth 64⟩] }

/-- 30_encoding.md R66, 60_exceptions.md R121: the five cases of an illegal word, and what the engine answers:
ILLEGAL_CMD with RDATA = zext_64(CMD), before any other check, with no state element changed. -/
def Obligations.IllegalWordsAreAnsweredIllegalCmd : Prop :=
  ∀ (s : State) (w : CmdWord) (opd : Word64) (rest : List HostInput), s.inputs = .command ⟨w, opd⟩ :: rest →
    (w.extractLsb' 12 4 ≠ 0 ∨
      0x08 ≤ (w.extractLsb' 0 8).toNat ∨
      ((w.extractLsb' 0 8).toNat ∈ [0x00, 0x02, 0x03, 0x05, 0x06] ∧ w.extractLsb' 8 4 ≠ 0) ∨
      ((w.extractLsb' 0 8).toNat ∈ [0x01, 0x04] ∧ 8 < (w.extractLsb' 8 4).toNat) ∨
      ((w.extractLsb' 0 8).toNat = 0x07 ∧ 1 < (w.extractLsb' 8 4).toNat)) →
    step s = .next { s with inputs := rest, responses := s.responses ++ [⟨.illegalCmd, w.setWidth 64⟩] }

/-- 30_encoding.md R64, R70: the decoder reads back every well-formed command from its encoding. -/
def Obligations.DecodeOfEncodeIsTheCommand : Prop :=
  ∀ i : Instr, wellFormed i = true → decode (encode i) = .ok i

/-- 30_encoding.md R61, R63: a decoded command is well-formed and its encoding is the word it came from; OPD is
kept where the command takes data. -/
def Obligations.EncodeOfDecodeIsTheWord : Prop :=
  ∀ (c : Command) (i : Instr), decode c = .ok i →
    wellFormed i = true ∧ (encode i).cmd = c.cmd ∧
      ((∃ n d, i = .keyb n d ∨ i = .upd n d) → (encode i).opd = c.opd)

/-- 30_encoding.md R72: the worked encodings that are one transaction each, read back. -/
def Obligations.WorkedEncodingsDecode : Prop :=
  decode ⟨0x0000, 0⟩ = .ok .nop ∧ decode ⟨0x0801, 0x0706050403020100⟩ = .ok (.keyb 8 0x0706050403020100) ∧
  decode ⟨0x0301, 0x000000000003f2a1⟩ = .ok (.keyb 3 0x000000000003f2a1) ∧ decode ⟨0x0002, 0⟩ = .ok .keyc ∧
  decode ⟨0x0003, 0⟩ = .ok .rst ∧ decode ⟨0x0004, 0⟩ = .ok (.upd 0 0) ∧
  decode ⟨0x0204, 0x6261⟩ = .ok (.upd 2 0x6261) ∧
  decode ⟨0x0804, 0x3837363534333231⟩ = .ok (.upd 8 0x3837363534333231) ∧ decode ⟨0x0005, 0⟩ = .ok .fin ∧
  decode ⟨0x0006, 0⟩ = .ok .stat ∧ decode ⟨0x0107, 0⟩ = .ok (.idq 1) ∧
  decode ⟨0x0904, 0⟩ = .error .lenAboveEight

/-- 30_encoding.md R63: two transactions with the same CMD whose data bytes agree below LEN, or whose command takes
no data, are one and the same to the engine. -/
def Obligations.IgnoredOperandBitsChangeNothing : Prop :=
  ∀ (w : CmdWord) (d d' : Word64) (s : State),
    ((w.extractLsb' 0 8).toNat ∈ [0x01, 0x04] →
      ∀ j : Nat, j < (w.extractLsb' 8 4).toNat → d.extractLsb' (8 * j) 8 = d'.extractLsb' (8 * j) 8) →
    accept ⟨w, d⟩ s = accept ⟨w, d'⟩ s

/-- 30_encoding.md R70: the assembler refuses KEYB and UPD with n > 8 or with a bit of d set at or above bit 8n,
refuses IDQ above 1, and every line but a raw transaction gives legal transactions only. -/
def Obligations.AssembledLinesAreLegal : Prop :=
  (∀ (n : Nat) (d : Word64), (assemble (.upd n d) = none ↔ 8 < n ∨ ∃ b, 8 * n ≤ b ∧ d.getLsbD b = true) ∧
    (assemble (.keyb n d) = none ↔ 8 < n ∨ ∃ b, 8 * n ≤ b ∧ d.getLsbD b = true)) ∧
  (∀ i : Nat, assemble (.idq i) = none ↔ 1 < i) ∧
  ∀ (l : AsmLine) (cs : List Command), (∀ c d, l ≠ .raw c d) → assemble l = some cs →
    ∀ c ∈ cs, ∃ i, decode c = .ok i

/-- 30_encoding.md R71: ABSORB of any bytes is a list of legal UPD commands whose data stream is those bytes. -/
def Obligations.AbsorbDeliversItsBytes : Prop :=
  ∀ bytes : List Byte, ∃ ps : Pieces, assemble (.absorb bytes) = some (updates ps) ∧ Legal ps ∧ stream ps = bytes

/-! Key loading -/

/-- 40_key.md R80: LaneInit sets the lanes from the key with the four constants, empties the buffer and clears the
counter; it writes nothing else, and FSM is not among what it writes. -/
def Obligations.LaneInitWritesLanesAndCounters : Prop :=
  ∀ s : State, laneInit s = { s with
    lanes := ⟨0x736f6d6570736575 ^^^ s.k0, 0x646f72616e646f6d ^^^ s.k1,
              0x6c7967656e657261 ^^^ s.k0, 0x7465646279746573 ^^^ s.k1⟩,
    bufCnt := 0, totalLen := 0 }

/-- 40_key.md R81: KEYB appends LEN bytes at positions below 16 and saturates the count at 17; nothing else
changes, and it answers OK in every state. -/
def Obligations.KeybStagesItsBytes : Prop :=
  (∀ (n : BitVec 4) (opd : Word64) (s : State), n.toNat ≤ 8 →
    ∃ t, exec (.keyb n opd) s = .next t ∧
      t = { s with ks := t.ks, ksCnt := t.ksCnt, responses := s.responses ++ [⟨.ok, 0⟩] } ∧
      t.ksCnt.val = min (s.ksCnt.val + n.toNat) 17 ∧
      ∀ (k : Nat) (h : k < 16), t.ks[k] =
        if s.ksCnt.val ≤ k ∧ k < s.ksCnt.val + n.toNat then opd.extractLsb' (8 * (k - s.ksCnt.val)) 8
        else s.ks[k]) ∧
  EncodedAs 0x01 8 .keyb

/-- 40_key.md R82 and R80: KEYC with 16 staged bytes commits the key, initialises the lanes and answers OK; with
any other count it answers INVALID_KEY_LENGTH and changes KS_CNT alone. -/
def Obligations.KeycCommitsSixteenBytes : Prop :=
  (∀ s : State, s.ksCnt.val = 16 →
    ∃ k0 k1 : Word64,
      (∀ (j : Nat) (h : j < 8), k0.extractLsb' (8 * j) 8 = s.ks[j] ∧ k1.extractLsb' (8 * j) 8 = s.ks[8 + j]) ∧
      exec .keyc s = .next { s with
        ksCnt := 0, k0 := k0, k1 := k1,
        lanes := ⟨0x736f6d6570736575 ^^^ k0, 0x646f72616e646f6d ^^^ k1,
                  0x6c7967656e657261 ^^^ k0, 0x7465646279746573 ^^^ k1⟩,
        bufCnt := 0, totalLen := 0, fsm := .fresh, responses := s.responses ++ [⟨.ok, 0⟩] }) ∧
  (∀ s : State, s.ksCnt.val ≠ 16 →
    exec .keyc s = .next { s with
      ksCnt := 0, responses := s.responses ++ [⟨.invalidKeyLength, BitVec.ofNat 64 s.ksCnt.val⟩] }) ∧
  EncodedAs 0x02 0 (fun _ _ => .keyc)

/-- 40_key.md R83: the key halves change only at a KEYC with 16 staged bytes and at hardware reset. -/
def Obligations.KeyChangesOnlyAtCommitOrReset : Prop :=
  ∀ s t : State, step s = .next t → t.k0 ≠ s.k0 ∨ t.k1 ≠ s.k1 →
    (∃ c rest, s.inputs = .command c :: rest ∧ decode c = .ok .keyc ∧ s.ksCnt.val = 16 ∧
      t.k0 = le (s.ks.toList.take 8) ∧ t.k1 = le (s.ks.toList.drop 8)) ∨
    (∃ cut rest, s.inputs = .hardwareReset cut :: rest ∧ t.k0 = 0 ∧ t.k1 = 0)

/-- 40_key.md R82, a corner case: committing the key the engine has already gives the state of RST with KS_CNT
cleared. -/
def Obligations.RecommittingTheKeyIsReset : Prop :=
  ∀ s : State, s.ksCnt.val = 16 → s.fsm ≠ .unkeyed →
    s.k0 = le (s.ks.toList.take 8) → s.k1 = le (s.ks.toList.drop 8) →
    ∃ t, exec .rst s = .next t ∧ exec .keyc s = .next { t with ksCnt := 0 }

/-- 30_encoding.md R71, 70_reset_and_hazards.md R142: with nothing staged, KEY k0, k1 loads the two halves in
every life-cycle state and leaves a FRESH engine, answering OK three times. With bytes staged before it, the count
passes 16 (40_key.md R81), so its KEYC answers INVALID_KEY_LENGTH with 17 (R82): the staging is cleared, and the key
and the message in progress stay. -/
def Obligations.KeyLoadCommitsBothHalves : Prop :=
  ∀ (s : State) (k0 k1 : Word64),
    ∃ (cs : List Command) (t : State), assemble (.key k0 k1) = some cs ∧ after s cs = some t ∧
      (s.ksCnt = 0 →
        t.k0 = k0 ∧ t.k1 = k1 ∧ t.fsm = .fresh ∧ t.lanes = initLanes k0 k1 ∧ t.bufCnt = 0 ∧ t.totalLen = 0 ∧
          t.ksCnt = 0 ∧ t.responses = s.responses ++ [⟨.ok, 0⟩, ⟨.ok, 0⟩, ⟨.ok, 0⟩]) ∧
      (s.ksCnt ≠ 0 →
        t = { s with ks := t.ks, ksCnt := 0,
                     responses := s.responses ++ [⟨.ok, 0⟩, ⟨.ok, 0⟩, ⟨.invalidKeyLength, 17⟩] })

/-! The permutation -/

/-- 41_permutation.md R91: the eight steps, written out on the four lanes with the library's rotation; the zero
state is a fixed point. -/
def Obligations.SipRoundIsTheEightSteps : Prop :=
  (∀ v0 v1 v2 v3 : Word64,
    let a0 := v0 + v1
    let a2 := v2 + v3
    let b1 := v1.rotateLeft 13 ^^^ a0
    let b3 := v3.rotateLeft 16 ^^^ a2
    let c2 := a2 + b1
    let c0 := a0.rotateLeft 32 + b3
    sipRound ⟨v0, v1, v2, v3⟩ =
      ⟨c0, b1.rotateLeft 17 ^^^ c2, c2.rotateLeft 32, b3.rotateLeft 21 ^^^ c0⟩) ∧
  sipRound ⟨0, 0, 0, 0⟩ = ⟨0, 0, 0, 0⟩

/-- The inference 41_permutation.md draws in section 2 ("Each of the eight steps can be undone, so SipRound is a
permutation of the 2^256 lane states"), and with it: compressing a given block is one too. -/
def Obligations.SipRoundAndCompressArePermutations : Prop :=
  Function.Bijective sipRound ∧ ∀ m : Word64, Function.Bijective (compress m)

/-- 41_permutation.md R92: compression is XOR into v3, two rounds, XOR into v0. -/
def Obligations.CompressIsTwoRoundsBetweenXors : Prop :=
  ∀ (m : Word64) (v : Lanes), ∃ w : Lanes, w = sipRound (sipRound ⟨v.v0, v.v1, v.v2, v.v3 ^^^ m⟩) ∧
    compress m v = ⟨w.v0 ^^^ m, w.v1, w.v2, w.v3⟩

/-- 41_permutation.md R93: the final block holds BUF[i] at bits 8i+7 : 8i for i < BUF_CNT, zeros from there to
bit 55, and TOTAL_LEN in bits 63:56. -/
def Obligations.FinalBlockHoldsTailAndLength : Prop :=
  ∀ s : State,
    (∀ (i : Nat) (h : i < 8), i < s.bufCnt.val → (finalBlock s).extractLsb' (8 * i) 8 = s.buf[i]) ∧
    (∀ i : Nat, s.bufCnt.val ≤ i → i < 7 → (finalBlock s).extractLsb' (8 * i) 8 = 0) ∧
    (finalBlock s).extractLsb' 56 8 = s.totalLen

/-! The message commands -/

/-- 42_hasher.md R100: RST re-initialises the lanes from the current key in every keyed state, and answers NO_KEY
with nothing changed in UNKEYED. -/
def Obligations.RstReinitialisesUnderTheKey : Prop :=
  (∀ s : State, s.fsm ≠ .unkeyed →
    exec .rst s = .next { s with
      lanes := ⟨0x736f6d6570736575 ^^^ s.k0, 0x646f72616e646f6d ^^^ s.k1,
                0x6c7967656e657261 ^^^ s.k0, 0x7465646279746573 ^^^ s.k1⟩,
      bufCnt := 0, totalLen := 0, fsm := .fresh, responses := s.responses ++ [⟨.ok, 0⟩] }) ∧
  (∀ s : State, s.fsm = .unkeyed →
    exec .rst s = .next { s with responses := s.responses ++ [⟨.noKey, 0⟩] }) ∧
  EncodedAs 0x03 0 (fun _ _ => .rst)

/-- 42_hasher.md R101: UPD appends LEN bytes to the tail; where the tail then has 8 bytes or more, the first 8 are
compressed as one little-endian block and the others stay. It adds LEN to TOTAL_LEN modulo 256, goes to ABSORBING
and answers OK. In UNKEYED it answers NO_KEY and in FINALIZED SEQUENCE, with nothing changed. -/
def Obligations.UpdAbsorbsItsBytes : Prop :=
  (∀ (n : BitVec 4) (opd : Word64) (s : State), n.toNat ≤ 8 → s.fsm = .fresh ∨ s.fsm = .absorbing →
    ∃ t, exec (.upd n opd) s = .next t ∧
      t = { s with lanes := t.lanes, buf := t.buf, bufCnt := t.bufCnt, totalLen := t.totalLen,
                   fsm := .absorbing, responses := s.responses ++ [⟨.ok, 0⟩] } ∧
      t.totalLen.toNat = (s.totalLen.toNat + n.toNat) % 256 ∧
      let all := tailBytes s ++ (List.range n.toNat).map fun j => opd.extractLsb' (8 * j) 8
      if s.bufCnt.val + n.toNat < 8 then
        t.bufCnt.val = s.bufCnt.val + n.toNat ∧ t.lanes = s.lanes ∧ tailBytes t = all
      else
        t.bufCnt.val = s.bufCnt.val + n.toNat - 8 ∧ t.lanes = compress (le (all.take 8)) s.lanes ∧
          tailBytes t = all.drop 8) ∧
  (∀ (n : BitVec 4) (opd : Word64) (s : State), n.toNat ≤ 8 → s.fsm = .unkeyed →
    exec (.upd n opd) s = .next { s with responses := s.responses ++ [⟨.noKey, 0⟩] }) ∧
  (∀ (n : BitVec 4) (opd : Word64) (s : State), n.toNat ≤ 8 → s.fsm = .finalized →
    exec (.upd n opd) s = .next { s with responses := s.responses ++ [⟨.sequence, 0⟩] }) ∧
  EncodedAs 0x04 8 .upd

/-- 42_hasher.md R102 and 41_permutation.md R94: FIN compresses the final block, XORs 0xff into v2, runs four
rounds, answers OK with the XOR of the lanes and goes to FINALIZED; BUF, BUF_CNT and TOTAL_LEN stay. In UNKEYED it
answers NO_KEY and in FINALIZED SEQUENCE, with nothing changed. -/
def Obligations.FinReturnsTheDigest : Prop :=
  (∀ s : State, s.fsm = .fresh ∨ s.fsm = .absorbing →
    ∃ w v : Lanes, w = compress (finalBlock s) s.lanes ∧
      v = sipRound (sipRound (sipRound (sipRound ⟨w.v0, w.v1, w.v2 ^^^ 0xff, w.v3⟩))) ∧
      exec .fin s = .next { s with
        lanes := v, fsm := .finalized,
        responses := s.responses ++ [⟨.ok, v.v0 ^^^ v.v1 ^^^ v.v2 ^^^ v.v3⟩] }) ∧
  (∀ s : State, s.fsm = .unkeyed →
    exec .fin s = .next { s with responses := s.responses ++ [⟨.noKey, 0⟩] }) ∧
  (∀ s : State, s.fsm = .finalized →
    exec .fin s = .next { s with responses := s.responses ++ [⟨.sequence, 0⟩] }) ∧
  EncodedAs 0x05 0 (fun _ _ => .fin)

/-- The inference of 42_hasher.md section 4, chunking invariance (R103): two non-empty sequences of legal UPDs with the same data stream end in the same state, but
for the responses given on the way, and any transactions ending with a FIN then get the same answer. Where one
sequence is empty the states may differ in FSM too, and FIN still returns the same digest. -/
def Obligations.ChunkingDoesNotMatter : Prop :=
  ∀ (s : State) (ps qs : Pieces), s.fsm = .fresh ∨ s.fsm = .absorbing → Legal ps → Legal qs →
    stream ps = stream qs →
    ∃ t u : State, after s (updates ps) = some t ∧ after s (updates qs) = some u ∧
      t = { u with fsm := t.fsm, responses := t.responses } ∧
      (ps ≠ [] → qs ≠ [] → t.fsm = u.fsm) ∧
      (ps ≠ [] → qs ≠ [] → ∀ (cs : List Command) (opd : Word64), ∃ (t' u' : State) (r : Response),
        after t (cs ++ [⟨0x0005, opd⟩]) = some t' ∧ after u (cs ++ [⟨0x0005, opd⟩]) = some u' ∧
        t'.responses.getLast? = some r ∧ u'.responses.getLast? = some r) ∧
      ∃ (t' u' : State) (d : Word64), exec .fin t = .next t' ∧ exec .fin u = .next u' ∧
        t'.responses = t.responses ++ [⟨.ok, d⟩] ∧ u'.responses = u.responses ++ [⟨.ok, d⟩]

/-- The inference of 42_hasher.md section 4 that the digest is SipHash-2-4 (R104): from a successful KEYC on the key bytes k, or an RST under that key, any UPDs whose data
stream is M and then FIN return SipHash24(k, M). -/
def Obligations.DigestIsSipHash : Prop :=
  ∀ (s : State) (ps : Pieces), Legal ps →
    (s.ksCnt.val = 16 →
      ∃ t, after s (encode .keyc :: updates ps ++ [encode .fin]) = some t ∧
        t.responses.getLast? = some ⟨.ok, sipHash24 s.ks (stream ps)⟩) ∧
    (∀ k : Vector Byte 16, s.fsm ≠ .unkeyed → s.k0 = le (k.toList.take 8) → s.k1 = le (k.toList.drop 8) →
      ∃ t, after s (encode .rst :: updates ps ++ [encode .fin]) = some t ∧
        t.responses.getLast? = some ⟨.ok, sipHash24 k (stream ps)⟩)

/-- 30_encoding.md R71: HASH under any committed key returns the hash of its bytes. -/
def Obligations.HashLineReturnsTheHash : Prop :=
  ∀ (s : State) (bytes : List Byte), s.fsm ≠ .unkeyed →
    ∃ (cs : List Command) (t : State), assemble (.hash bytes) = some cs ∧ after s cs = some t ∧
      t.responses.getLast? = some ⟨.ok, sipHashHalves s.k0 s.k1 bytes⟩

/-- The inference of 42_hasher.md section 4 on length boundaries (R105): from an engine that holds the empty message, a message of fewer than 8 bytes causes no
compression before FIN, one of exactly 8 causes exactly one and has the final block 0x08 << 56, and one whose
length is a multiple of 256 has TOTAL_LEN = 0 and a final block with a zero high byte. -/
def Obligations.LengthBoundariesHold : Prop :=
  ∀ (s : State) (ps : Pieces), s.fsm = .fresh → Inv s → Legal ps →
    ∃ t, after s (updates ps) = some t ∧
      ((stream ps).length < 8 → t.lanes = s.lanes ∧ tailBytes t = stream ps) ∧
      ((stream ps).length = 8 → t.lanes = compress (le (stream ps)) s.lanes ∧
        finalBlock t = 0x0800000000000000) ∧
      (256 ∣ (stream ps).length → t.totalLen = 0 ∧ (finalBlock t).extractLsb' 56 8 = 0)

/-! The query commands -/

/-- 43_query.md R110: NOP answers OK, 0 in every state and changes nothing. -/
def Obligations.NopDoesNothing : Prop :=
  (∀ s : State, exec .nop s = .next { s with responses := s.responses ++ [⟨.ok, 0⟩] }) ∧
  EncodedAs 0x00 0 (fun _ _ => .nop)

/-- 43_query.md R111: STAT answers OK in every state with the status word, field by field, and changes nothing. -/
def Obligations.StatReturnsTheStatusWord : Prop :=
  (∀ s : State, ∃ w : Word64, exec .stat s = .next { s with responses := s.responses ++ [⟨.ok, w⟩] } ∧
    w.extractLsb' 0 2 = fsmBits s.fsm ∧ w.extractLsb' 2 2 = 0 ∧
    (w.extractLsb' 4 3).toNat = s.bufCnt.val ∧ w.extractLsb' 7 1 = 0 ∧
    w.extractLsb' 8 8 = s.totalLen ∧ (w.extractLsb' 16 5).toNat = s.ksCnt.val ∧ w.extractLsb' 21 3 = 0 ∧
    w.extractLsb' 24 4 = 2 ∧ w.extractLsb' 28 4 = 4 ∧ w.extractLsb' 32 32 = 0) ∧
  EncodedAs 0x06 0 (fun _ _ => .stat)

/-- 43_query.md R112: IDQ answers OK in every state with an identifier word and changes nothing. -/
def Obligations.IdqReturnsTheIdentifier : Prop :=
  (∀ s : State,
    exec (.idq 0) s = .next { s with responses := s.responses ++ [⟨.ok, 0x2d68736148706953⟩] } ∧
    exec (.idq 1) s = .next { s with responses := s.responses ++ [⟨.ok, 0x0000000000342d32⟩] }) ∧
  EncodedAs 0x07 1 (fun index _ => .idq index)

/-- 43_query.md section 3, a corner case of IDQ: the words' bytes up to the first zero spell SipHash-2-4. The ASCII
codes are what the spec marks "[from general knowledge, not in source]" (G2). -/
def Obligations.IdentifierSpellsTheName : Prop :=
  (digestBytes (identifierWord 0) ++ digestBytes (identifierWord 1)).takeWhile (· != 0) =
    ['S', 'i', 'p', 'H', 'a', 's', 'h', '-', '2', '-', '4'].map fun c => BitVec.ofNat 8 c.toNat

/-! Errors -/

/-- 60_exceptions.md R120 and R125: the numbers of the codes, and for every transaction in every state the one code
it answers, by priority, and RDATA as 30_encoding.md R69 gives it. -/
def Obligations.ResponseCodesFollowThePriority : Prop :=
  (respBits .ok = 0 ∧ respBits .illegalCmd = 1 ∧ respBits .invalidKeyLength = 2 ∧ respBits .noKey = 3 ∧
    respBits .sequence = 4) ∧
  ∀ (c : Command) (s : State), ∃ (t : State) (r : Response),
    accept c s = .next t ∧ t.responses = s.responses ++ [r] ∧
    (if legal c.cmd = false then r = ⟨.illegalCmd, c.cmd.setWidth 64⟩
     else if s.fsm = .unkeyed ∧ (c.cmd.extractLsb' 0 8).toNat ∈ [0x03, 0x04, 0x05] then r = ⟨.noKey, 0⟩
     else if s.fsm = .finalized ∧ (c.cmd.extractLsb' 0 8).toNat ∈ [0x04, 0x05] then r = ⟨.sequence, 0⟩
     else if s.ksCnt.val ≠ 16 ∧ (c.cmd.extractLsb' 0 8).toNat = 0x02 then
       r = ⟨.invalidKeyLength, BitVec.ofNat 64 s.ksCnt.val⟩
     else r.code = .ok ∧ r.rdata =
       if (c.cmd.extractLsb' 0 8).toNat = 0x05 then digest (finalLanes (finalBlock s) s.lanes)
       else if (c.cmd.extractLsb' 0 8).toNat = 0x06 then statusWord s
       else if (c.cmd.extractLsb' 0 8).toNat = 0x07 then identifierWord (c.cmd.extractLsb' 8 4)
       else 0)

/-- 60_exceptions.md R126: a transaction answered ILLEGAL_CMD, NO_KEY or SEQUENCE leaves every state element as it
was, and a KEYC answered INVALID_KEY_LENGTH changes KS_CNT to 0 and nothing else. -/
def Obligations.ErrorsArePrecise : Prop :=
  ∀ (c : Command) (s : State), ∃ (t : State) (r : Response),
    accept c s = .next t ∧ t.responses = s.responses ++ [r] ∧
    (r.code = .illegalCmd ∨ r.code = .noKey ∨ r.code = .sequence → t = { s with responses := t.responses }) ∧
    (r.code = .invalidKeyLength → decode c = .ok .keyc ∧ t = { s with ksCnt := 0, responses := t.responses })
end

