-- ==== Sys2Proof/Laws/Decode.lean ====
section
/-! SUPPORT. What the decoder can answer: the fields of the word behind each command, and the words it refuses. -/

namespace Sys2Proof.Laws

/-- The LEN and operand a command of this opcode was read from. -/
def ReadFrom (c : Command) : Instr → Prop
  | .nop => (opField c.cmd).toNat = 0x00 ∧ lenField c.cmd = 0
  | .keyb n opd => (opField c.cmd).toNat = 0x01 ∧ n = lenField c.cmd ∧ n.toNat ≤ 8 ∧ opd = c.opd
  | .keyc => (opField c.cmd).toNat = 0x02 ∧ lenField c.cmd = 0
  | .rst => (opField c.cmd).toNat = 0x03 ∧ lenField c.cmd = 0
  | .upd n opd => (opField c.cmd).toNat = 0x04 ∧ n = lenField c.cmd ∧ n.toNat ≤ 8 ∧ opd = c.opd
  | .fin => (opField c.cmd).toNat = 0x05 ∧ lenField c.cmd = 0
  | .stat => (opField c.cmd).toNat = 0x06 ∧ lenField c.cmd = 0
  | .idq index => (opField c.cmd).toNat = 0x07 ∧ index = lenField c.cmd ∧ index.toNat ≤ 1

theorem decodePlain_ok {len : BitVec 4} {i j : Instr} :
    decodePlain len i = .ok j ↔ len = 0 ∧ i = j := by
  unfold decodePlain
  split <;> simp_all

theorem decodeData_ok {len : BitVec 4} {i j : Instr} :
    decodeData len i = .ok j ↔ len.toNat ≤ 8 ∧ i = j := by
  unfold decodeData
  split <;> simp_all

theorem decodeIndex_ok {len : BitVec 4} {i j : Instr} :
    decodeIndex len i = .ok j ↔ len.toNat ≤ 1 ∧ i = j := by
  unfold decodeIndex
  split <;> simp_all

/-- The decoder answers a command exactly where RSV is 0 and the word's fields are the command's. -/
theorem decode_ok_iff (c : Command) (i : Instr) :
    decode c = .ok i ↔ rsvField c.cmd = 0 ∧ ReadFrom c i := by
  unfold decode
  by_cases hr : rsvField c.cmd = 0
  · rw [if_neg (not_not_intro hr)]
    split
    all_goals
      try simp only [decodePlain_ok, decodeData_ok, decodeIndex_ok]
      cases i <;> grind [ReadFrom]
  · rw [if_pos hr]
    grind

/-- A command that the decoder answers has an encoding. -/
theorem decode_ok_wellFormed {c : Command} {i : Instr} (h : decode c = .ok i) : wellFormed i = true := by
  have h := ((decode_ok_iff c i).mp h).2
  cases i <;> grind [wellFormed, ReadFrom]

/-- A command word is its three fields. -/
theorem word_of_fields (w : CmdWord) :
    w = (rsvField w).setWidth 16 <<< 12 ||| cmdWord (lenField w) (opField w) := by
  apply BitVec.eq_of_getLsbD_eq
  intro p hp
  by_cases h1 : p < 8
  · simp [rsvField, lenField, opField, cmdWord, h1, hp, show p < 12 by omega]
  · by_cases h2 : p < 12
    · simp [rsvField, lenField, opField, cmdWord, h1, h2, hp, show p - 8 < 4 by omega, show 8 + (p - 8) = p by omega]
    · simp [rsvField, lenField, opField, cmdWord, h1, h2, hp, show p - 12 < 4 by omega,
        show 12 + (p - 12) = p by omega, show ¬ p - 8 < 4 by omega]

end Sys2Proof.Laws
end

