-- ==== Sys2Proof/Laws/Operands.lean ====
section
/-! SUPPORT. What the operand bytes and the little-endian word are, byte by byte. -/

namespace Sys2Proof.Laws

open Sys2Proof.Machine

@[simp] theorem dataBytes_length (n : Nat) (opd : Word64) : (dataBytes n opd).length = n := by
  simp [dataBytes]

@[simp] theorem dataBytes_zero (opd : Word64) : dataBytes 0 opd = [] := rfl

theorem dataBytes_getElem (n : Nat) (opd : Word64) (j : Nat) (h : j < (dataBytes n opd).length) :
    (dataBytes n opd)[j] = dbyte opd j := by
  simp [dataBytes]

/-- The data bytes depend on the bytes below LEN alone. -/
theorem dataBytes_congr {n : Nat} {d d' : Word64} (h : ∀ j, j < n → dbyte d j = dbyte d' j) :
    dataBytes n d = dataBytes n d' := by
  unfold dataBytes
  exact List.map_congr_left fun j hj => h j (List.mem_range.mp hj)

/-- One bit of the word: the bit of the byte that stands there, and 0 elsewhere. -/
theorem leFrom_getLsbD (i : Nat) (bytes : List Byte) (p : Nat) (hp : p < 64) :
    (leFrom i bytes).getLsbD p =
      (decide (8 * i ≤ p) && ((bytes[p / 8 - i]?).getD 0).getLsbD (p % 8)) := by
  induction bytes generalizing i with
  | nil => simp [leFrom]
  | cons b bs ih =>
    simp only [leFrom, BitVec.getLsbD_or, BitVec.getLsbD_shiftLeft, BitVec.getLsbD_setWidth, ih]
    by_cases h1 : p < 8 * i
    · have : ¬ 8 * (i + 1) ≤ p := by omega
      have : ¬ 8 * i ≤ p := by omega
      simp [*]
    · by_cases h2 : p < 8 * (i + 1)
      · have h3 : p / 8 - i = 0 := by omega
        have h4 : p - 8 * i = p % 8 := by omega
        have h5 : ¬ 8 * (i + 1) ≤ p := by omega
        have h6 : 8 * i ≤ p := by omega
        have h7 : p % 8 < 64 := by omega
        simp [h1, h3, h4, h5, h6, h7, hp]
      · have h3 : p / 8 - i = (p / 8 - (i + 1)) + 1 := by omega
        have h4 : 8 * (i + 1) ≤ p := by omega
        have h5 : 8 * i ≤ p := by omega
        have h6 : b.getLsbD (p - 8 * i) = false := BitVec.getLsbD_of_ge _ _ (by omega)
        simp [h1, h3, h4, h5, h6, hp]

theorem le_getLsbD (bytes : List Byte) (p : Nat) (hp : p < 64) :
    (le bytes).getLsbD p = ((bytes[p / 8]?).getD 0).getLsbD (p % 8) := by
  simp [le, leFrom_getLsbD 0 bytes p hp]

/-- Byte j of LE(b0, b1, ...) is bj, and 0 where there is no bj (00_scope.md R10). -/
theorem le_byte (bytes : List Byte) (j : Nat) (hj : j < 8) :
    (le bytes).extractLsb' (8 * j) 8 = (bytes[j]?).getD 0 := by
  apply BitVec.eq_of_getLsbD_eq
  intro p hp
  have h1 : (8 * j + p) / 8 = j := by omega
  have h2 : (8 * j + p) % 8 = p := by omega
  rw [BitVec.getLsbD_extractLsb', le_getLsbD _ _ (by omega), h1, h2]
  simp [hp]

/-- A 64-bit word is the LE of its eight bytes. -/
theorem le_dataBytes (w : Word64) : le (dataBytes 8 w) = w := by
  apply BitVec.eq_of_getLsbD_eq
  intro p hp
  have h1 : p / 8 < 8 := by omega
  have h2 : 8 * (p / 8) + p % 8 = p := by omega
  have h3 : p % 8 < 8 := by omega
  rw [le_getLsbD _ _ hp]
  simp [dataBytes, h1, dbyte, h2, h3]

end Sys2Proof.Laws
end

