-- ==== Sys2Proof/Laws/State.lean ====
section
/-! SUPPORT. The fields of the state after each named update, one lemma for each field. -/

namespace Sys2Proof.Laws

open Sys2Proof.Machine

@[simp] theorem respond_lanes (code : RespCode) (rdata : Word64) (s : State) :
    (respond code rdata s).lanes = s.lanes := rfl

@[simp] theorem respond_k0 (code : RespCode) (rdata : Word64) (s : State) :
    (respond code rdata s).k0 = s.k0 := rfl

@[simp] theorem respond_k1 (code : RespCode) (rdata : Word64) (s : State) :
    (respond code rdata s).k1 = s.k1 := rfl

@[simp] theorem respond_ks (code : RespCode) (rdata : Word64) (s : State) :
    (respond code rdata s).ks = s.ks := rfl

@[simp] theorem respond_ksCnt (code : RespCode) (rdata : Word64) (s : State) :
    (respond code rdata s).ksCnt = s.ksCnt := rfl

@[simp] theorem respond_buf (code : RespCode) (rdata : Word64) (s : State) :
    (respond code rdata s).buf = s.buf := rfl

@[simp] theorem respond_bufCnt (code : RespCode) (rdata : Word64) (s : State) :
    (respond code rdata s).bufCnt = s.bufCnt := rfl

@[simp] theorem respond_totalLen (code : RespCode) (rdata : Word64) (s : State) :
    (respond code rdata s).totalLen = s.totalLen := rfl

@[simp] theorem respond_fsm (code : RespCode) (rdata : Word64) (s : State) :
    (respond code rdata s).fsm = s.fsm := rfl

@[simp] theorem respond_inputs (code : RespCode) (rdata : Word64) (s : State) :
    (respond code rdata s).inputs = s.inputs := rfl

@[simp] theorem respond_responses (code : RespCode) (rdata : Word64) (s : State) :
    (respond code rdata s).responses = s.responses ++ [⟨code, rdata⟩] := rfl

@[simp] theorem raise_lanes (code : RespCode) (rdata : Word64) (s : State) :
    (raise code rdata s).lanes = s.lanes := rfl

@[simp] theorem raise_k0 (code : RespCode) (rdata : Word64) (s : State) :
    (raise code rdata s).k0 = s.k0 := rfl

@[simp] theorem raise_k1 (code : RespCode) (rdata : Word64) (s : State) :
    (raise code rdata s).k1 = s.k1 := rfl

@[simp] theorem raise_ks (code : RespCode) (rdata : Word64) (s : State) :
    (raise code rdata s).ks = s.ks := rfl

@[simp] theorem raise_ksCnt (code : RespCode) (rdata : Word64) (s : State) :
    (raise code rdata s).ksCnt = s.ksCnt := rfl

@[simp] theorem raise_buf (code : RespCode) (rdata : Word64) (s : State) :
    (raise code rdata s).buf = s.buf := rfl

@[simp] theorem raise_bufCnt (code : RespCode) (rdata : Word64) (s : State) :
    (raise code rdata s).bufCnt = s.bufCnt := rfl

@[simp] theorem raise_totalLen (code : RespCode) (rdata : Word64) (s : State) :
    (raise code rdata s).totalLen = s.totalLen := rfl

@[simp] theorem raise_fsm (code : RespCode) (rdata : Word64) (s : State) :
    (raise code rdata s).fsm = s.fsm := rfl

@[simp] theorem raise_inputs (code : RespCode) (rdata : Word64) (s : State) :
    (raise code rdata s).inputs = s.inputs := rfl

@[simp] theorem raise_responses (code : RespCode) (rdata : Word64) (s : State) :
    (raise code rdata s).responses = s.responses ++ [⟨code, rdata⟩] := rfl

@[simp] theorem raiseIllegal_lanes (w : CmdWord) (s : State) :
    (raiseIllegal w s).lanes = s.lanes := rfl

@[simp] theorem raiseIllegal_k0 (w : CmdWord) (s : State) :
    (raiseIllegal w s).k0 = s.k0 := rfl

@[simp] theorem raiseIllegal_k1 (w : CmdWord) (s : State) :
    (raiseIllegal w s).k1 = s.k1 := rfl

@[simp] theorem raiseIllegal_ks (w : CmdWord) (s : State) :
    (raiseIllegal w s).ks = s.ks := rfl

@[simp] theorem raiseIllegal_ksCnt (w : CmdWord) (s : State) :
    (raiseIllegal w s).ksCnt = s.ksCnt := rfl

@[simp] theorem raiseIllegal_buf (w : CmdWord) (s : State) :
    (raiseIllegal w s).buf = s.buf := rfl

@[simp] theorem raiseIllegal_bufCnt (w : CmdWord) (s : State) :
    (raiseIllegal w s).bufCnt = s.bufCnt := rfl

@[simp] theorem raiseIllegal_totalLen (w : CmdWord) (s : State) :
    (raiseIllegal w s).totalLen = s.totalLen := rfl

@[simp] theorem raiseIllegal_fsm (w : CmdWord) (s : State) :
    (raiseIllegal w s).fsm = s.fsm := rfl

@[simp] theorem raiseIllegal_inputs (w : CmdWord) (s : State) :
    (raiseIllegal w s).inputs = s.inputs := rfl

@[simp] theorem raiseIllegal_responses (w : CmdWord) (s : State) :
    (raiseIllegal w s).responses = s.responses ++ [⟨.illegalCmd, w.setWidth 64⟩] := rfl

@[simp] theorem hardwareReset_lanes (s : State) :
    (hardwareReset s).lanes = State.reset.lanes := rfl

@[simp] theorem hardwareReset_k0 (s : State) :
    (hardwareReset s).k0 = State.reset.k0 := rfl

@[simp] theorem hardwareReset_k1 (s : State) :
    (hardwareReset s).k1 = State.reset.k1 := rfl

@[simp] theorem hardwareReset_ks (s : State) :
    (hardwareReset s).ks = State.reset.ks := rfl

@[simp] theorem hardwareReset_ksCnt (s : State) :
    (hardwareReset s).ksCnt = State.reset.ksCnt := rfl

@[simp] theorem hardwareReset_buf (s : State) :
    (hardwareReset s).buf = State.reset.buf := rfl

@[simp] theorem hardwareReset_bufCnt (s : State) :
    (hardwareReset s).bufCnt = State.reset.bufCnt := rfl

@[simp] theorem hardwareReset_totalLen (s : State) :
    (hardwareReset s).totalLen = State.reset.totalLen := rfl

@[simp] theorem hardwareReset_fsm (s : State) :
    (hardwareReset s).fsm = State.reset.fsm := rfl

@[simp] theorem hardwareReset_inputs (s : State) :
    (hardwareReset s).inputs = s.inputs := rfl

@[simp] theorem hardwareReset_responses (s : State) :
    (hardwareReset s).responses = s.responses := rfl

@[simp] theorem offerFirst_lanes (c : Command) (s : State) :
    (offerFirst c s).lanes = s.lanes := rfl

@[simp] theorem offerFirst_k0 (c : Command) (s : State) :
    (offerFirst c s).k0 = s.k0 := rfl

@[simp] theorem offerFirst_k1 (c : Command) (s : State) :
    (offerFirst c s).k1 = s.k1 := rfl

@[simp] theorem offerFirst_ks (c : Command) (s : State) :
    (offerFirst c s).ks = s.ks := rfl

@[simp] theorem offerFirst_ksCnt (c : Command) (s : State) :
    (offerFirst c s).ksCnt = s.ksCnt := rfl

@[simp] theorem offerFirst_buf (c : Command) (s : State) :
    (offerFirst c s).buf = s.buf := rfl

@[simp] theorem offerFirst_bufCnt (c : Command) (s : State) :
    (offerFirst c s).bufCnt = s.bufCnt := rfl

@[simp] theorem offerFirst_totalLen (c : Command) (s : State) :
    (offerFirst c s).totalLen = s.totalLen := rfl

@[simp] theorem offerFirst_fsm (c : Command) (s : State) :
    (offerFirst c s).fsm = s.fsm := rfl

@[simp] theorem offerFirst_inputs (c : Command) (s : State) :
    (offerFirst c s).inputs = .command c :: s.inputs := rfl

@[simp] theorem offerFirst_responses (c : Command) (s : State) :
    (offerFirst c s).responses = s.responses := rfl

@[simp] theorem laneInit_lanes (s : State) :
    (laneInit s).lanes = initLanes s.k0 s.k1 := rfl

@[simp] theorem laneInit_k0 (s : State) :
    (laneInit s).k0 = s.k0 := rfl

@[simp] theorem laneInit_k1 (s : State) :
    (laneInit s).k1 = s.k1 := rfl

@[simp] theorem laneInit_ks (s : State) :
    (laneInit s).ks = s.ks := rfl

@[simp] theorem laneInit_ksCnt (s : State) :
    (laneInit s).ksCnt = s.ksCnt := rfl

@[simp] theorem laneInit_buf (s : State) :
    (laneInit s).buf = s.buf := rfl

@[simp] theorem laneInit_bufCnt (s : State) :
    (laneInit s).bufCnt = 0 := rfl

@[simp] theorem laneInit_totalLen (s : State) :
    (laneInit s).totalLen = 0 := rfl

@[simp] theorem laneInit_fsm (s : State) :
    (laneInit s).fsm = s.fsm := rfl

@[simp] theorem laneInit_inputs (s : State) :
    (laneInit s).inputs = s.inputs := rfl

@[simp] theorem laneInit_responses (s : State) :
    (laneInit s).responses = s.responses := rfl

@[simp] theorem commitKey_lanes (s : State) :
    (commitKey s).lanes = s.lanes := rfl

@[simp] theorem commitKey_k0 (s : State) :
    (commitKey s).k0 = le (s.ks.toList.take 8) := rfl

@[simp] theorem commitKey_k1 (s : State) :
    (commitKey s).k1 = le (s.ks.toList.drop 8) := rfl

@[simp] theorem commitKey_ks (s : State) :
    (commitKey s).ks = s.ks := rfl

@[simp] theorem commitKey_ksCnt (s : State) :
    (commitKey s).ksCnt = s.ksCnt := rfl

@[simp] theorem commitKey_buf (s : State) :
    (commitKey s).buf = s.buf := rfl

@[simp] theorem commitKey_bufCnt (s : State) :
    (commitKey s).bufCnt = s.bufCnt := rfl

@[simp] theorem commitKey_totalLen (s : State) :
    (commitKey s).totalLen = s.totalLen := rfl

@[simp] theorem commitKey_fsm (s : State) :
    (commitKey s).fsm = s.fsm := rfl

@[simp] theorem commitKey_inputs (s : State) :
    (commitKey s).inputs = s.inputs := rfl

@[simp] theorem commitKey_responses (s : State) :
    (commitKey s).responses = s.responses := rfl

@[simp] theorem finalize_lanes (s : State) :
    (finalize s).lanes = finalLanes (finalBlock s) s.lanes := rfl

@[simp] theorem finalize_k0 (s : State) :
    (finalize s).k0 = s.k0 := rfl

@[simp] theorem finalize_k1 (s : State) :
    (finalize s).k1 = s.k1 := rfl

@[simp] theorem finalize_ks (s : State) :
    (finalize s).ks = s.ks := rfl

@[simp] theorem finalize_ksCnt (s : State) :
    (finalize s).ksCnt = s.ksCnt := rfl

@[simp] theorem finalize_buf (s : State) :
    (finalize s).buf = s.buf := rfl

@[simp] theorem finalize_bufCnt (s : State) :
    (finalize s).bufCnt = s.bufCnt := rfl

@[simp] theorem finalize_totalLen (s : State) :
    (finalize s).totalLen = s.totalLen := rfl

@[simp] theorem finalize_fsm (s : State) :
    (finalize s).fsm = .finalized := rfl

@[simp] theorem finalize_inputs (s : State) :
    (finalize s).inputs = s.inputs := rfl

@[simp] theorem finalize_responses (s : State) :
    (finalize s).responses = s.responses := rfl

@[simp] theorem stageByte_lanes (s : State) (b : Byte) :
    (stageByte s b).lanes = s.lanes := rfl

@[simp] theorem stageByte_k0 (s : State) (b : Byte) :
    (stageByte s b).k0 = s.k0 := rfl

@[simp] theorem stageByte_k1 (s : State) (b : Byte) :
    (stageByte s b).k1 = s.k1 := rfl

@[simp] theorem stageByte_buf (s : State) (b : Byte) :
    (stageByte s b).buf = s.buf := rfl

@[simp] theorem stageByte_bufCnt (s : State) (b : Byte) :
    (stageByte s b).bufCnt = s.bufCnt := rfl

@[simp] theorem stageByte_totalLen (s : State) (b : Byte) :
    (stageByte s b).totalLen = s.totalLen := rfl

@[simp] theorem stageByte_fsm (s : State) (b : Byte) :
    (stageByte s b).fsm = s.fsm := rfl

@[simp] theorem stageByte_inputs (s : State) (b : Byte) :
    (stageByte s b).inputs = s.inputs := rfl

@[simp] theorem stageByte_responses (s : State) (b : Byte) :
    (stageByte s b).responses = s.responses := rfl

@[simp] theorem absorbByte_k0 (s : State) (b : Byte) :
    (absorbByte s b).k0 = s.k0 := rfl

@[simp] theorem absorbByte_k1 (s : State) (b : Byte) :
    (absorbByte s b).k1 = s.k1 := rfl

@[simp] theorem absorbByte_ks (s : State) (b : Byte) :
    (absorbByte s b).ks = s.ks := rfl

@[simp] theorem absorbByte_ksCnt (s : State) (b : Byte) :
    (absorbByte s b).ksCnt = s.ksCnt := rfl

@[simp] theorem absorbByte_buf (s : State) (b : Byte) :
    (absorbByte s b).buf = s.buf.set s.bufCnt.val b s.bufCnt.isLt := rfl

@[simp] theorem absorbByte_totalLen (s : State) (b : Byte) :
    (absorbByte s b).totalLen = s.totalLen := rfl

@[simp] theorem absorbByte_fsm (s : State) (b : Byte) :
    (absorbByte s b).fsm = s.fsm := rfl

@[simp] theorem absorbByte_inputs (s : State) (b : Byte) :
    (absorbByte s b).inputs = s.inputs := rfl

@[simp] theorem absorbByte_responses (s : State) (b : Byte) :
    (absorbByte s b).responses = s.responses := rfl

@[simp] theorem stageBytes_lanes (s : State) (bytes : List Byte) :
    (stageBytes s bytes).lanes = s.lanes := by
  induction bytes generalizing s with
  | nil => rfl
  | cons b bs ih => exact ih (stageByte s b)

@[simp] theorem stageBytes_k0 (s : State) (bytes : List Byte) :
    (stageBytes s bytes).k0 = s.k0 := by
  induction bytes generalizing s with
  | nil => rfl
  | cons b bs ih => exact ih (stageByte s b)

@[simp] theorem stageBytes_k1 (s : State) (bytes : List Byte) :
    (stageBytes s bytes).k1 = s.k1 := by
  induction bytes generalizing s with
  | nil => rfl
  | cons b bs ih => exact ih (stageByte s b)

@[simp] theorem stageBytes_buf (s : State) (bytes : List Byte) :
    (stageBytes s bytes).buf = s.buf := by
  induction bytes generalizing s with
  | nil => rfl
  | cons b bs ih => exact ih (stageByte s b)

@[simp] theorem stageBytes_bufCnt (s : State) (bytes : List Byte) :
    (stageBytes s bytes).bufCnt = s.bufCnt := by
  induction bytes generalizing s with
  | nil => rfl
  | cons b bs ih => exact ih (stageByte s b)

@[simp] theorem stageBytes_totalLen (s : State) (bytes : List Byte) :
    (stageBytes s bytes).totalLen = s.totalLen := by
  induction bytes generalizing s with
  | nil => rfl
  | cons b bs ih => exact ih (stageByte s b)

@[simp] theorem stageBytes_fsm (s : State) (bytes : List Byte) :
    (stageBytes s bytes).fsm = s.fsm := by
  induction bytes generalizing s with
  | nil => rfl
  | cons b bs ih => exact ih (stageByte s b)

@[simp] theorem stageBytes_inputs (s : State) (bytes : List Byte) :
    (stageBytes s bytes).inputs = s.inputs := by
  induction bytes generalizing s with
  | nil => rfl
  | cons b bs ih => exact ih (stageByte s b)

@[simp] theorem stageBytes_responses (s : State) (bytes : List Byte) :
    (stageBytes s bytes).responses = s.responses := by
  induction bytes generalizing s with
  | nil => rfl
  | cons b bs ih => exact ih (stageByte s b)

@[simp] theorem absorbBytes_k0 (s : State) (bytes : List Byte) :
    (absorbBytes s bytes).k0 = s.k0 := by
  induction bytes generalizing s with
  | nil => rfl
  | cons b bs ih => exact ih (absorbByte s b)

@[simp] theorem absorbBytes_k1 (s : State) (bytes : List Byte) :
    (absorbBytes s bytes).k1 = s.k1 := by
  induction bytes generalizing s with
  | nil => rfl
  | cons b bs ih => exact ih (absorbByte s b)

@[simp] theorem absorbBytes_ks (s : State) (bytes : List Byte) :
    (absorbBytes s bytes).ks = s.ks := by
  induction bytes generalizing s with
  | nil => rfl
  | cons b bs ih => exact ih (absorbByte s b)

@[simp] theorem absorbBytes_ksCnt (s : State) (bytes : List Byte) :
    (absorbBytes s bytes).ksCnt = s.ksCnt := by
  induction bytes generalizing s with
  | nil => rfl
  | cons b bs ih => exact ih (absorbByte s b)

@[simp] theorem absorbBytes_totalLen (s : State) (bytes : List Byte) :
    (absorbBytes s bytes).totalLen = s.totalLen := by
  induction bytes generalizing s with
  | nil => rfl
  | cons b bs ih => exact ih (absorbByte s b)

@[simp] theorem absorbBytes_fsm (s : State) (bytes : List Byte) :
    (absorbBytes s bytes).fsm = s.fsm := by
  induction bytes generalizing s with
  | nil => rfl
  | cons b bs ih => exact ih (absorbByte s b)

@[simp] theorem absorbBytes_inputs (s : State) (bytes : List Byte) :
    (absorbBytes s bytes).inputs = s.inputs := by
  induction bytes generalizing s with
  | nil => rfl
  | cons b bs ih => exact ih (absorbByte s b)

@[simp] theorem absorbBytes_responses (s : State) (bytes : List Byte) :
    (absorbBytes s bytes).responses = s.responses := by
  induction bytes generalizing s with
  | nil => rfl
  | cons b bs ih => exact ih (absorbByte s b)

@[simp] theorem update_lanes (n : BitVec 4) (opd : Word64) (s : State) :
    (update n opd s).lanes = (absorbBytes s (dataBytes n.toNat opd)).lanes := rfl

@[simp] theorem update_k0 (n : BitVec 4) (opd : Word64) (s : State) :
    (update n opd s).k0 = s.k0 := absorbBytes_k0 s _

@[simp] theorem update_k1 (n : BitVec 4) (opd : Word64) (s : State) :
    (update n opd s).k1 = s.k1 := absorbBytes_k1 s _

@[simp] theorem update_ks (n : BitVec 4) (opd : Word64) (s : State) :
    (update n opd s).ks = s.ks := absorbBytes_ks s _

@[simp] theorem update_ksCnt (n : BitVec 4) (opd : Word64) (s : State) :
    (update n opd s).ksCnt = s.ksCnt := absorbBytes_ksCnt s _

@[simp] theorem update_buf (n : BitVec 4) (opd : Word64) (s : State) :
    (update n opd s).buf = (absorbBytes s (dataBytes n.toNat opd)).buf := rfl

@[simp] theorem update_bufCnt (n : BitVec 4) (opd : Word64) (s : State) :
    (update n opd s).bufCnt = (absorbBytes s (dataBytes n.toNat opd)).bufCnt := rfl

@[simp] theorem update_totalLen (n : BitVec 4) (opd : Word64) (s : State) :
    (update n opd s).totalLen = add8 s.totalLen (n.setWidth 8) := rfl

@[simp] theorem update_fsm (n : BitVec 4) (opd : Word64) (s : State) :
    (update n opd s).fsm = .absorbing := rfl

@[simp] theorem update_inputs (n : BitVec 4) (opd : Word64) (s : State) :
    (update n opd s).inputs = s.inputs := absorbBytes_inputs s _

@[simp] theorem update_responses (n : BitVec 4) (opd : Word64) (s : State) :
    (update n opd s).responses = s.responses := absorbBytes_responses s _

end Sys2Proof.Laws
end

