-- ==== Sys2Proof/Laws/Hasher.lean ====
section
/-! SUPPORT. What absorbing bytes does to the lanes and the tail, for one byte and for a whole stream. -/

namespace Sys2Proof.Laws

open Sys2Proof.Machine

theorem tailBytes_length (s : State) : (tailBytes s).length = s.bufCnt.val := by
  have := s.bufCnt.isLt
  simp only [tailBytes, List.length_take, Vector.length_toList]
  omega

/-- The new byte stands after the old tail. -/
theorem take_set_tail (s : State) (b : Byte) :
    ((s.buf.set s.bufCnt.val b s.bufCnt.isLt).toList).take (s.bufCnt.val + 1) = tailBytes s ++ [b] := by
  have hlt := s.bufCnt.isLt
  simp only [tailBytes, Vector.toList_set]
  rw [List.take_add_one, List.take_set_of_le (Nat.le_refl _)]
  simp

theorem absorbByte_short (s : State) (b : Byte) (h : s.bufCnt.val + 1 < 8) :
    (absorbByte s b).lanes = s.lanes ∧ tailBytes (absorbByte s b) = tailBytes s ++ [b] := by
  have h' : s.bufCnt.val + 1 < Config.blockBytes := h
  refine ⟨by simp [absorbByte, h'], ?_⟩
  rw [← take_set_tail]
  simp [tailBytes, absorbByte, h']

theorem absorbByte_full (s : State) (b : Byte) (h : ¬ s.bufCnt.val + 1 < 8) :
    (absorbByte s b).lanes = compress (le (tailBytes s ++ [b])) s.lanes ∧
      tailBytes (absorbByte s b) = [] := by
  have h' : ¬ s.bufCnt.val + 1 < Config.blockBytes := h
  have h7 : s.bufCnt.val + 1 = 8 := by have := s.bufCnt.isLt; omega
  refine ⟨?_, by simp [tailBytes, absorbByte, h']⟩
  rw [← take_set_tail, h7]
  simp [absorbByte, h', List.take_of_length_le]

/-- Two folds over the numbers below k agree where their steps do. -/
theorem foldl_range_congr {α : Type} {f g : α → Nat → α} (k : Nat) (a : α)
    (h : ∀ v i, i < k → f v i = g v i) :
    (List.range k).foldl f a = (List.range k).foldl g a := by
  induction k with
  | zero => rfl
  | succ k ih =>
    rw [List.range_succ, List.foldl_append, List.foldl_append, ih fun v i hi => h v i (by omega)]
    exact h _ k (by omega)

/-- One more byte completes a block where the message leaves 7 bytes over, and compresses nothing elsewhere. -/
theorem absorbBlocks_append_one (v : Lanes) (m : List Byte) (b : Byte) :
    absorbBlocks v (m ++ [b]) =
      if m.length % 8 = 7 then compress (le (restBytes m ++ [b])) (absorbBlocks v m) else absorbBlocks v m := by
  have same : ∀ (w : Lanes) (i : Nat), i < m.length / 8 →
      compress (le (((m ++ [b]).drop (8 * i)).take 8)) w = compress (le ((m.drop (8 * i)).take 8)) w := by
    intro w i hi
    rw [List.drop_append_of_le_length (by omega), List.take_append_of_le_length (by simp; omega)]
  have prefixes := foldl_range_congr (m.length / 8) v same
  unfold absorbBlocks
  rw [List.length_append, List.length_singleton]
  by_cases h : m.length % 8 = 7
  · have h1 : (m.length + 1) / 8 = m.length / 8 + 1 := by omega
    have h2 : m.length - m.length % 8 = 8 * (m.length / 8) := by omega
    have h3 : ((m ++ [b]).drop (8 * (m.length / 8))).take 8 = restBytes m ++ [b] := by
      rw [restBytes, h2, List.drop_append_of_le_length (by omega), List.take_of_length_le (by simp; omega)]
    rw [if_pos h, h1, List.range_succ, List.foldl_append, prefixes, ← h3]
    rfl
  · have h1 : (m.length + 1) / 8 = m.length / 8 := by omega
    rw [if_neg h, h1]
    exact prefixes

theorem restBytes_length (m : List Byte) : (restBytes m).length = m.length % 8 := by
  simp [restBytes]
  omega

theorem restBytes_append_one (m : List Byte) (b : Byte) :
    restBytes (m ++ [b]) = if m.length % 8 = 7 then [] else restBytes m ++ [b] := by
  unfold restBytes
  rw [List.length_append, List.length_singleton]
  by_cases h : m.length % 8 = 7
  · rw [if_pos h]
    apply List.drop_of_length_le
    simp
    omega
  · rw [if_neg h, List.drop_append_of_le_length (by omega)]
    congr 2
    omega

/-- What the lanes and the tail are once the bytes `bytes` have followed the message m (42_hasher.md R101). -/
theorem absorbBytes_holds (s : State) (v : Lanes) (m bytes : List Byte)
    (hl : s.lanes = absorbBlocks v m) (ht : tailBytes s = restBytes m) :
    (absorbBytes s bytes).lanes = absorbBlocks v (m ++ bytes) ∧
      tailBytes (absorbBytes s bytes) = restBytes (m ++ bytes) := by
  induction bytes generalizing s m with
  | nil => simpa [absorbBytes] using And.intro hl ht
  | cons b bs ih =>
    have hcnt : s.bufCnt.val = m.length % 8 := by rw [← tailBytes_length, ht, restBytes_length]
    have step : (absorbByte s b).lanes = absorbBlocks v (m ++ [b]) ∧
        tailBytes (absorbByte s b) = restBytes (m ++ [b]) := by
      rw [absorbBlocks_append_one, restBytes_append_one]
      by_cases h : m.length % 8 = 7
      · obtain ⟨h1, h2⟩ := absorbByte_full s b (by omega)
        rw [if_pos h, if_pos h, h1, h2, hl, ht]
        exact ⟨rfl, rfl⟩
      · obtain ⟨h1, h2⟩ := absorbByte_short s b (by omega)
        rw [if_neg h, if_neg h, h1, h2, hl, ht]
        exact ⟨rfl, rfl⟩
    have := ih (absorbByte s b) (m ++ [b]) step.1 step.2
    simpa [absorbBytes] using this

/-- Absorbing one stream and then another is absorbing their concatenation. -/
theorem absorbBytes_append (s : State) (a b : List Byte) :
    absorbBytes s (a ++ b) = absorbBytes (absorbBytes s a) b :=
  List.foldl_append

/-- Absorbing changes the lanes, BUF and BUF_CNT alone (42_hasher.md R101). -/
theorem absorbBytes_frame (s : State) (bytes : List Byte) :
    absorbBytes s bytes = { s with
      lanes := (absorbBytes s bytes).lanes, buf := (absorbBytes s bytes).buf,
      bufCnt := (absorbBytes s bytes).bufCnt } := by
  induction bytes generalizing s with
  | nil => rfl
  | cons b bs ih =>
    show absorbBytes (absorbByte s b) bs = _
    rw [ih]
    rfl

theorem restBytes_of_length_lt (m : List Byte) (h : m.length < 8) : restBytes m = m := by
  have : m.length - m.length % 8 = 0 := by omega
  simp [restBytes, this]

theorem absorbBlocks_of_length_lt (v : Lanes) (m : List Byte) (h : m.length < 8) :
    absorbBlocks v m = v := by
  have : m.length / 8 = 0 := by omega
  simp [absorbBlocks, this]

/-- UPD's loop in the document's words (42_hasher.md R101): append all bytes to the tail; where there are 8 or
more, compress the first 8; the tail is what is left. -/
theorem absorbBytes_contract (s : State) (bytes : List Byte) (h : bytes.length ≤ 8) :
    let all := tailBytes s ++ bytes
    (absorbBytes s bytes).lanes = (if all.length < 8 then s.lanes else compress (le (all.take 8)) s.lanes) ∧
      tailBytes (absorbBytes s bytes) = if all.length < 8 then all else all.drop 8 := by
  have hlen := tailBytes_length s
  have hlt := s.bufCnt.isLt
  obtain ⟨h1, h2⟩ := absorbBytes_holds s s.lanes (tailBytes s) bytes
    (absorbBlocks_of_length_lt _ _ (by omega)).symm (restBytes_of_length_lt _ (by omega)).symm
  intro all
  have hall : all.length = s.bufCnt.val + bytes.length := by simp [all, hlen]
  rw [h1, h2]
  by_cases hs : all.length < 8
  · rw [if_pos hs, if_pos hs]
    exact ⟨absorbBlocks_of_length_lt _ _ hs, restBytes_of_length_lt _ hs⟩
  · rw [if_neg hs, if_neg hs]
    have d1 : all.length / 8 = 1 := by omega
    have d2 : all.length - all.length % 8 = 8 := by omega
    refine ⟨?_, ?_⟩
    · show absorbBlocks s.lanes all = _
      simp [absorbBlocks, d1]
    · show restBytes all = _
      rw [restBytes, d2]

end Sys2Proof.Laws
end

