-- ==== Sys2Proof/Laws/Key.lean ====
section
/-! SUPPORT. What staging does: the count saturates, and each byte below position 16 lands in its slot. -/

namespace Sys2Proof.Laws

open Sys2Proof.Machine

theorem stageByte_ksCnt (s : State) (b : Byte) :
    (stageByte s b).ksCnt.val = min (s.ksCnt.val + 1) 17 := rfl

theorem stageByte_ks (s : State) (b : Byte) (k : Nat) (hk : k < 16) :
    (stageByte s b).ks[k] = if k = s.ksCnt.val then b else s.ks[k] := by
  unfold stageByte
  by_cases h : s.ksCnt.val < 16
  · simp only [h, dite_true, Vector.getElem_set, eq_comm]
  · have : k ≠ s.ksCnt.val := by omega
    simp [h, this]

theorem stageBytes_cons (s : State) (b : Byte) (bs : List Byte) :
    stageBytes s (b :: bs) = stageBytes (stageByte s b) bs := rfl

/-- KEYB's count after its loop (40_key.md R81). -/
theorem stageBytes_ksCnt (s : State) (bytes : List Byte) :
    (stageBytes s bytes).ksCnt.val = min (s.ksCnt.val + bytes.length) 17 := by
  induction bytes generalizing s with
  | nil => have := s.ksCnt.isLt; simp [stageBytes]; omega
  | cons b bs ih =>
    rw [stageBytes_cons, ih, stageByte_ksCnt, List.length_cons]
    omega

/-- KEYB's bytes after its loop: position k holds the data byte that arrived as the k-th, or keeps its own. -/
theorem stageBytes_ks (s : State) (bytes : List Byte) (k : Nat) (hk : k < 16) :
    (stageBytes s bytes).ks[k] =
      if s.ksCnt.val ≤ k then (bytes[k - s.ksCnt.val]?).getD s.ks[k] else s.ks[k] := by
  induction bytes generalizing s with
  | nil => simp [stageBytes]
  | cons b bs ih =>
    rw [stageBytes_cons, ih, stageByte_ks _ _ _ hk, stageByte_ksCnt]
    by_cases h1 : s.ksCnt.val ≤ k
    · by_cases h2 : k = s.ksCnt.val
      · have h3 : ¬ min (s.ksCnt.val + 1) 17 ≤ k := by omega
        have h4 : k - s.ksCnt.val = 0 := by omega
        rw [if_neg h3, if_pos h2, if_pos h1, h4]
        rfl
      · have h3 : min (s.ksCnt.val + 1) 17 = s.ksCnt.val + 1 := by omega
        have h4 : s.ksCnt.val + 1 ≤ k := by omega
        have h5 : k - s.ksCnt.val = (k - (s.ksCnt.val + 1)) + 1 := by omega
        rw [h5]
        simp [h1, h2, h3, h4]
    · have h2 : k ≠ s.ksCnt.val := by omega
      have h3 : ¬ min (s.ksCnt.val + 1) 17 ≤ k := by omega
      simp [h1, h2, h3]

/-- Staging changes KS and KS_CNT alone (40_key.md R81). -/
theorem stageBytes_frame (s : State) (bytes : List Byte) :
    stageBytes s bytes = { s with ks := (stageBytes s bytes).ks, ksCnt := (stageBytes s bytes).ksCnt } := by
  induction bytes generalizing s with
  | nil => rfl
  | cons b bs ih =>
    rw [stageBytes_cons, ih]
    rfl

end Sys2Proof.Laws
end

