-- ==== Sys2Proof/Laws/PerInstr.lean ====
section
/-! SUPPORT. What holds of every command as syntax, one lemma for each constructor. -/

namespace Sys2Proof.Laws

/-- The encoder leaves RSV at 0, and puts the LEN field of the command, or 0, into CMD[11:8]. -/
def EncodeFields.Statement (i : Instr) : Prop :=
  rsvField (encode i).cmd = 0 ∧
    lenField (encode i).cmd =
      match i with
      | .keyb n _ => n
      | .upd n _ => n
      | .idq index => index
      | .nop => 0
      | .keyc => 0
      | .rst => 0
      | .fin => 0
      | .stat => 0

theorem rsvField_cmdWord (len : BitVec 4) (op : BitVec 8) : rsvField (cmdWord len op) = 0 := by
  apply BitVec.eq_of_getLsbD_eq
  intro p hp
  have h1 : 12 + p < 16 := by omega
  have h2 : len.getLsbD (12 + p - 8) = false := BitVec.getLsbD_of_ge _ _ (by omega)
  have h3 : op.getLsbD (12 + p) = false := BitVec.getLsbD_of_ge _ _ (by omega)
  simp [rsvField, cmdWord, h1, h2, h3]

theorem lenField_cmdWord (len : BitVec 4) (op : BitVec 8) : lenField (cmdWord len op) = len := by
  apply BitVec.eq_of_getLsbD_eq
  intro p hp
  have h1 : 8 + p < 16 := by omega
  simp [lenField, cmdWord, h1, hp]

theorem opField_cmdWord (len : BitVec 4) (op : BitVec 8) : opField (cmdWord len op) = op := by
  apply BitVec.eq_of_getLsbD_eq
  intro p hp
  have h1 : p < 16 := by omega
  simp [opField, cmdWord, h1, hp]

theorem EncodeFields.nop : EncodeFields.Statement .nop :=
  ⟨rsvField_cmdWord _ _, lenField_cmdWord _ _⟩

theorem EncodeFields.keyb (n : BitVec 4) (opd : Word64) : EncodeFields.Statement (.keyb n opd) :=
  ⟨rsvField_cmdWord _ _, lenField_cmdWord _ _⟩

theorem EncodeFields.keyc : EncodeFields.Statement .keyc :=
  ⟨rsvField_cmdWord _ _, lenField_cmdWord _ _⟩

theorem EncodeFields.rst : EncodeFields.Statement .rst :=
  ⟨rsvField_cmdWord _ _, lenField_cmdWord _ _⟩

theorem EncodeFields.upd (n : BitVec 4) (opd : Word64) : EncodeFields.Statement (.upd n opd) :=
  ⟨rsvField_cmdWord _ _, lenField_cmdWord _ _⟩

theorem EncodeFields.fin : EncodeFields.Statement .fin :=
  ⟨rsvField_cmdWord _ _, lenField_cmdWord _ _⟩

theorem EncodeFields.stat : EncodeFields.Statement .stat :=
  ⟨rsvField_cmdWord _ _, lenField_cmdWord _ _⟩

theorem EncodeFields.idq (index : BitVec 4) : EncodeFields.Statement (.idq index) :=
  ⟨rsvField_cmdWord _ _, lenField_cmdWord _ _⟩

end Sys2Proof.Laws
end

