-- ==== Sys2Proof/Laws/Step.lean ====
section
/-! SUPPORT. What a command and a step can answer: always a next state, with one response for each command. -/

namespace Sys2Proof.Laws

open Sys2Proof.Machine

/-- The checks of UPD and FIN, said by the life-cycle state. -/
theorem withOpenMessage_eq (body : State → State) (s : State) :
    withOpenMessage body s =
      if s.fsm = .unkeyed then raise .noKey 0 s
      else if s.fsm = .finalized then raise .sequence 0 s
      else body s := by
  unfold withOpenMessage
  cases s.fsm <;> rfl

/-- The check of RST, said by the life-cycle state. -/
theorem withKey_eq (body : State → State) (s : State) :
    withKey body s = if s.fsm = .unkeyed then raise .noKey 0 s else body s := by
  unfold withKey
  cases s.fsm <;> rfl

/-- A state that differs from `s` by one response at the end, and offers the same inputs. -/
def Responded (s t : State) : Prop := ∃ r, t.responses = s.responses ++ [r] ∧ t.inputs = s.inputs

theorem withLegalLen_responded (max : Nat) (len : BitVec 4) (i : Instr) (body : State → State) (s : State)
    (h : Responded s (body s)) : Responded s (withLegalLen max len i body s) := by
  unfold withLegalLen
  split
  · exact h
  · exact ⟨_, rfl, rfl⟩

theorem withOpenMessage_responded (body : State → State) (s : State) (h : Responded s (body s)) :
    Responded s (withOpenMessage body s) := by
  unfold withOpenMessage
  cases s.fsm
  · exact ⟨_, rfl, rfl⟩
  · exact h
  · exact h
  · exact ⟨_, rfl, rfl⟩

theorem withKey_responded (body : State → State) (s : State) (h : Responded s (body s)) :
    Responded s (withKey body s) := by
  unfold withKey
  cases s.fsm
  · exact ⟨_, rfl, rfl⟩
  · exact h
  · exact h
  · exact h

/-- Every command answers a next state with exactly one response more, and touches no input. -/
theorem exec_responds (i : Instr) (s : State) : ∃ t, exec i s = .next t ∧ Responded s t := by
  cases i with
  | nop => exact ⟨_, rfl, _, rfl, rfl⟩
  | keyb n opd =>
    refine ⟨_, rfl, withLegalLen_responded _ _ _ _ _ ⟨⟨.ok, 0⟩, ?_, ?_⟩⟩
    · simp
    · simp
  | keyc =>
    refine ⟨_, rfl, ?_⟩
    split
    · exact ⟨_, rfl, rfl⟩
    · exact ⟨_, rfl, rfl⟩
  | rst => exact ⟨_, rfl, withKey_responded _ _ ⟨_, rfl, rfl⟩⟩
  | upd n opd =>
    refine ⟨_, rfl, withLegalLen_responded _ _ _ _ _ (withOpenMessage_responded _ _ ⟨⟨.ok, 0⟩, ?_, ?_⟩)⟩
    · simp
    · simp
  | fin => exact ⟨_, rfl, withOpenMessage_responded _ _ ⟨_, rfl, rfl⟩⟩
  | stat => exact ⟨_, rfl, _, rfl, rfl⟩
  | idq index => exact ⟨_, rfl, withLegalLen_responded _ _ _ _ _ ⟨_, rfl, rfl⟩⟩

/-- Every transaction, legal or not, is answered by a next state with exactly one response more. -/
theorem accept_responds (c : Command) (s : State) : ∃ t, accept c s = .next t ∧ Responded s t := by
  unfold accept
  split
  · exact exec_responds _ s
  · exact ⟨_, rfl, _, rfl, rfl⟩

/-- What a step can do: idle, finish one transaction, or be a hardware reset. -/
theorem step_cases (s : State) :
    (s.inputs = [] ∧ step s = .next s) ∨
    (∃ c rest, s.inputs = .command c :: rest ∧ step s = accept c { s with inputs := rest }) ∨
    (∃ cut rest, s.inputs = .hardwareReset cut :: rest ∧
      step s = .next (hardwareReset { s with inputs := rest })) := by
  unfold step takeInput
  cases h : s.inputs with
  | nil => exact .inl ⟨rfl, rfl⟩
  | cons input rest =>
    cases input with
    | command c => exact .inr (.inl ⟨c, rest, rfl, rfl⟩)
    | hardwareReset cut => exact .inr (.inr ⟨cut, rest, rfl, rfl⟩)

end Sys2Proof.Laws
end

