-- ==== Sys2Proof/Tests/Slice0.lean ====
section
/-! SUPPORT. Tests on the spec's vectors (95_test_vectors.md), and a witness for each statement with hypotheses. -/

namespace Sys2Proof.Tests

open Sys2Proof.Machine Sys2Proof.Safety

/-! ## Helpers -/

/-- The halves of the standard key (95_test_vectors.md, conventions). -/
def stdK0 : Word64 := 0x0706050403020100
def stdK1 : Word64 := 0x0f0e0d0c0b0a0908

/-- The standard key's bytes. -/
def stdKey : Vector Byte 16 := #v[0, 1, 2, 3, 4, 5, 6, 7, 8, 9, 10, 11, 12, 13, 14, 15]

/-- The lanes of V-K1. -/
def lanesK1 : Lanes := ⟨0x7469686173716475, 0x6b617f6d656e6665, 0x6b7f62616d677361, 0x7b6b696e727e6c7b⟩

/-- The lanes of V-C1. -/
def lanesC1 : Lanes := ⟨0x4a017198de0a59e0, 0x0d52f6f62a4f59a4, 0x634cb3577b01fd3d, 0xa5224d6f55c7d9c8⟩

/-- An engine right after the standard key load. -/
def keyed : State := { State.reset with lanes := lanesK1, k0 := stdK0, k1 := stdK1, ks := stdKey, fsm := .fresh }

/-- The engine of V-S1 before its FIN: 15 bytes absorbed. -/
def absorbing15 : State :=
  { keyed with lanes := lanesC1, buf := #v[8, 9, 10, 11, 12, 13, 14, 7], bufCnt := 7, totalLen := 15, fsm := .absorbing }

/-- The same engine after FIN. -/
def finalized15 : State :=
  { absorbing15 with lanes := ⟨0xf6bcd53893fecff1, 0x54b9964c7ea0d937, 0x1b38329c099bb55a, 0x1814bb89ad7be679⟩,
                     fsm := .finalized }

/-- Sixteen staged bytes and no key yet. -/
def staged16 : State := { State.reset with ks := stdKey, ksCnt := 16 }

/-- What a test asks of an outcome: a condition on its next state. -/
def nextIs (o : Host.Outcome State Fault Refusal) (p : State → Bool) : Bool :=
  match o with
  | .next t => p t
  | .fault _ => false
  | .refused _ => false

/-- The last response of a state is this one. -/
def answered (t : State) (code : RespCode) (rdata : Word64) : Bool := t.responses.getLast? == some ⟨code, rdata⟩

/-! ## Well-formedness: one ill-formed term for each check (30_encoding.md R62) -/

theorem test_keyb_len_9_ill_formed : wellFormed (.keyb 9 0) = false := by decide
theorem test_upd_len_9_ill_formed : wellFormed (.upd 9 0) = false := by decide
theorem test_idq_2_ill_formed : wellFormed (.idq 2) = false := by decide

/-! ## Decoding: each command from a word written bit by bit from 30_encoding.md R64 -/

theorem test_decode_nop : decode ⟨0b0000000000000000, 0⟩ = .ok .nop := by decide
theorem test_decode_keyb : decode ⟨0b0000100000000001, 0x0706050403020100⟩ = .ok (.keyb 8 0x0706050403020100) := by
  decide
theorem test_decode_keyc : decode ⟨0b0000000000000010, 0⟩ = .ok .keyc := by decide
theorem test_decode_rst : decode ⟨0b0000000000000011, 0⟩ = .ok .rst := by decide
theorem test_decode_upd : decode ⟨0b0000001000000100, 0x6261⟩ = .ok (.upd 2 0x6261) := by decide
theorem test_decode_fin : decode ⟨0b0000000000000101, 0⟩ = .ok .fin := by decide
theorem test_decode_stat : decode ⟨0b0000000000000110, 0⟩ = .ok .stat := by decide
theorem test_decode_idq : decode ⟨0b0000000100000111, 0⟩ = .ok (.idq 1) := by decide

/-- V-E4, V-E5, V-E8 to V-E14: each case of R66 by its name. -/
theorem test_decode_illegal_words :
    decode ⟨0x0901, 0⟩ = .error .lenAboveEight ∧ decode ⟨0x0f04, 0⟩ = .error .lenAboveEight ∧
    decode ⟨0x0207, 0⟩ = .error .indexAboveOne ∧ decode ⟨0x0105, 0⟩ = .error .lenNotZero ∧
    decode ⟨0x0008, 0⟩ = .error .unassignedOp ∧ decode ⟨0x00ff, 0⟩ = .error .unassignedOp ∧
    decode ⟨0x1000, 0⟩ = .error .reservedSet ∧ decode ⟨0x8004, 0⟩ = .error .reservedSet ∧
    decode ⟨0xffff, 0⟩ = .error .reservedSet := by decide

/-- 30_encoding.md R72: worked encodings, from the command to its word. -/
theorem test_encode_words :
    encode (.keyb 3 0x3f2a1) = ⟨0x0301, 0x3f2a1⟩ ∧ encode (.upd 8 0x3837363534333231) = ⟨0x0804, 0x3837363534333231⟩ ∧
    encode (.idq 1) = ⟨0x0107, 0⟩ := by decide

/-- A table word of 16 bits gets a zero operand. -/
theorem test_decodeTableWord : decodeTableWord 16 0x0804 = some (.upd 8 0) ∧ decodeTableWord 16 0x0904 = none := by
  decide

/-! ## Primitives and the permutation -/

/-- V-A1 to V-A4. -/
theorem test_rotl64 :
    rotl64 0x8000000000000001 13 = 0x0000000000003000 ∧ rotl64 0x0123456789abcdef 32 = 0x89abcdef01234567 ∧
    rotl64 0x0000000000000001 21 = 0x0000000000200000 ∧ rotl64 0xffffffffffffffff 17 = 0xffffffffffffffff := by decide

/-- V-A5 to V-A9. -/
theorem test_add_and_le :
    add64 0xffffffffffffffff 1 = 0 ∧ add64 0x8000000000000000 0x8000000000000000 = 0 ∧ add8 250 8 = 2 ∧
    add8 255 1 = 0 ∧ le [0x61] = 0x61 ∧ le [0xff] = 0xff := by decide

/-- V-L: the little-endian definition, and the digest of V-S1 serialised. -/
theorem test_byte_order :
    le [0, 1, 2, 3, 4, 5, 6, 7] = stdK0 ∧
    digestBytes 0xa129ca6149be45e5 = [0xe5, 0x45, 0xbe, 0x49, 0x61, 0xca, 0x29, 0xa1] := by decide

/-- 30_encoding.md R63's extraction example of 95_test_vectors.md. -/
theorem test_data_bytes : dataBytes 3 0x1122334455636261 = [0x61, 0x62, 0x63] := by decide

/-- V-P3 and V-P4. -/
theorem test_sipRound_one_bit :
    sipRound ⟨0, 1, 0, 0⟩ = ⟨0x0000000100000000, 0x0000000040022001, 0x0000200100000000, 0x0000000100000000⟩ ∧
    sipRound ⟨0, 0, 1, 0⟩ = ⟨0x0000000000000001, 0x0000000000000001, 0x0000000100000000, 0x0000000000200001⟩ := by
  decide

/-- V-P6 and V-P8. -/
theorem test_sipRound_carries :
    sipRound ⟨0xffffffffffffffff, 0xffffffffffffffff, 0xffffffffffffffff, 0xffffffffffffffff⟩ =
      ⟨0xffffffff00000000, 0xfffffffffffdffff, 0xffffffffffffffff, 0xffffffff00200000⟩ ∧
    sipRound lanesK1 = ⟨0x6864848c93698c85, 0x41d43f143c94a7dc, 0xf3f94792d7121732, 0x5e52f75805987c12⟩ := by decide

/-- V-C1 and V-C3. -/
theorem test_compress :
    compress 0x0706050403020100 lanesK1 = lanesC1 ∧
    compress 0x3837363534333231 lanesK1 =
      ⟨0xdf9f3f997927e99f, 0xde8aa504fa1debc4, 0x9f850ac06ca87f91, 0x514714403836fcb8⟩ := by decide

/-- V-M1 and V-M3. -/
theorem test_finalBlock :
    finalBlock absorbing15 = 0x0f0e0d0c0b0a0908 ∧
    finalBlock { keyed with totalLen := 8 } = 0x0800000000000000 := by decide

/-- V-F3: the whole finalisation of "12345678". -/
theorem test_finalLanes :
    finalLanes 0x0800000000000000
        ⟨0xdf9f3f997927e99f, 0xde8aa504fa1debc4, 0x9f850ac06ca87f91, 0x514714403836fcb8⟩ =
      ⟨0xf14c5dfd9e38a4ed, 0xbf96426706250aa6, 0x11729ddda7fd66b6, 0x5dbb844ef50aff16⟩ := by decide

/-- The reference function on V-S4 ("abcdef") and V-R1's n = 16. -/
theorem test_sipHash24 :
    sipHash24 stdKey [0x61, 0x62, 0x63, 0x64, 0x65, 0x66] = 0x2a6e77e733c7c05d ∧
    sipHash24 stdKey stdKey.toList = 0x3f2acc7f57c29bdb := by decide

/-! ## The commands, one step each -/

/-- V-K6: four bytes fit, the others are discarded, and the count saturates. -/
theorem test_keyb_saturates :
    nextIs (exec (.keyb 8 0xffffffffffffffff) { State.reset with ksCnt := 12 }) (fun t =>
      t.ksCnt == 17 && t.ks.toList == List.replicate 12 0 ++ [0xff, 0xff, 0xff, 0xff] && answered t .ok 0) = true := by
  decide

/-- V-K5: the seventeenth byte is not stored. -/
theorem test_keyb_seventeenth_byte :
    nextIs (exec (.keyb 1 0x10) staged16) (fun t => t.ksCnt == 17 && t.ks == stdKey) = true := by decide

/-- V-K12. -/
theorem test_keyc_commits :
    nextIs (exec .keyc staged16) (fun t => t == { keyed with responses := [⟨.ok, 0⟩] }) = true := by decide

/-- V-K8 and V-X9: the count seen is answered, the key and FSM stay. -/
theorem test_keyc_wrong_length :
    nextIs (exec .keyc { finalized15 with ksCnt := 15 }) (fun t =>
      t == { finalized15 with responses := [⟨.invalidKeyLength, 15⟩] }) = true := by decide

/-- V-H7 and V-X7: the staging in progress stays. -/
theorem test_rst_from_finalized :
    nextIs (exec .rst { finalized15 with ksCnt := 5 }) (fun t =>
      t.lanes == lanesK1 && t.bufCnt == 0 && t.totalLen == 0 && t.fsm == .fresh && t.ksCnt == 5) = true := by decide

/-- V-X6. -/
theorem test_rst_without_key : nextIs (exec .rst State.reset) (fun t => answered t .noKey 0) = true := by decide

/-- V-H5: one compression in the middle of a command's bytes. -/
theorem test_upd_across_a_block :
    nextIs (exec (.upd 8 0x0c0b0a0908070605)
        { keyed with buf := #v[0, 1, 2, 3, 4, 0, 0, 0], bufCnt := 5, totalLen := 5, fsm := .absorbing }) (fun t =>
      t.lanes == lanesC1 && tailBytes t == [8, 9, 10, 11, 12] && t.totalLen == 13) = true := by decide

/-- V-H6: TOTAL_LEN wraps. -/
theorem test_upd_length_wraps :
    nextIs (exec (.upd 8 0) { keyed with bufCnt := 2, totalLen := 250, fsm := .absorbing }) (fun t =>
      t.totalLen == 2 && t.bufCnt == 2) = true := by decide

/-- V-S1: the digest, and BUF_CNT and TOTAL_LEN kept (V-H11). -/
theorem test_fin_digest :
    nextIs (exec .fin absorbing15) (fun t =>
      t == { finalized15 with responses := [⟨.ok, 0xa129ca6149be45e5⟩] }) = true := by decide

/-- V-H8. -/
theorem test_fin_twice :
    nextIs (exec .fin finalized15) (fun t => t == { finalized15 with responses := [⟨.sequence, 0⟩] }) = true := by
  decide

/-- V-H11 and V-Q4. -/
theorem test_stat_words :
    nextIs (exec .stat finalized15) (fun t => answered t .ok 0x0000000042000f73) = true ∧
    nextIs (exec .stat { State.reset with ksCnt := 17 }) (fun t => answered t .ok 0x0000000042110000) = true := by
  decide

/-- V-Q8 and V-Q9. -/
theorem test_idq_words :
    nextIs (exec (.idq 0) State.reset) (fun t => answered t .ok 0x2d68736148706953) = true ∧
    nextIs (exec (.idq 1) keyed) (fun t => answered t .ok 0x0000000000342d32) = true := by decide

/-- V-Q6. -/
theorem test_nop : nextIs (exec .nop keyed) (fun t => t == { keyed with responses := [⟨.ok, 0⟩] }) = true := by decide

/-! ## The step -/

/-- V-X1 and V-X3: decode comes before NO_KEY and before SEQUENCE. -/
theorem test_illegal_before_state_checks :
    nextIs (step (offering [⟨0x1104, 0x61⟩] State.reset)) (fun t => answered t .illegalCmd 0x1104) = true ∧
    nextIs (step (offering [⟨0x0904, 0⟩] finalized15)) (fun t => answered t .illegalCmd 0x0904) = true := by decide

/-- V-Z1 and V-Z3: a FIN cut off by hardware reset gives no response. -/
theorem test_reset_cuts_off_fin :
    step { finalized15 with ksCnt := 5, inputs := [.hardwareReset (some (encode .fin))] } = .next State.reset := by
  rfl

/-- V-H4: the bytes above LEN are ignored. -/
theorem test_step_ignores_high_bytes :
    nextIs (step (offering [⟨0x0104, 0xffffffffffffff61⟩] keyed)) (fun t =>
      tailBytes t == [0x61] && t.totalLen == 1 && t.inputs == []) = true := by decide

/-- The table word placed at the port is what the next step runs. -/
theorem test_withFetchWord : nextIs (step (State.reset.withFetchWord 16 0x0007)) (fun t =>
    answered t .ok 0x2d68736148706953) = true := by decide

/-! ## The assembler (30_encoding.md R70 to R72) -/

theorem test_assemble_line :
    assembleText "UPD 8, 0x3837363534333231 ; 12345678".toList = some [⟨0x0804, 0x3837363534333231⟩] ∧
    assembleText "UPD 9, 0x0".toList = none ∧ assembleText "UPD 1, 0x100".toList = none ∧
    assembleText ".cmd 0x0904, 0x0".toList = some [⟨0x0904, 0⟩] := by decide

theorem test_assemble_pseudo :
    assembleText "KEY 0x0706050403020100, 0x0f0e0d0c0b0a0908".toList =
      some [⟨0x0801, stdK0⟩, ⟨0x0801, stdK1⟩, ⟨0x0002, 0⟩] ∧
    assembleText "ZEROS 10".toList = some [⟨0x0804, 0⟩, ⟨0x0204, 0⟩] ∧
    assemble (.hash [0x61, 0x62]) = some [⟨0x0003, 0⟩, ⟨0x0204, 0x6261⟩, ⟨0x0005, 0⟩] := by decide

theorem test_listing : listing (encode (.upd 2 0x6261)) = "CMD=0x0204 OPD=0x0000000000006261" := by decide

/-! ## Witnesses: for each statement with hypotheses, a state and operands that meet them all -/

theorem keyed_inv : Inv keyed := by
  constructor
  · decide
  · decide
  · intro _
    exact ⟨rfl, rfl, ⟨by decide, by decide, by decide⟩⟩
  · intro h
    cases h
  · intro h
    cases h

theorem witness_LittleEndianWordHoldsEachByte :
    [0x61#8].length ≤ 8 ∧ 0 < [0x61#8].length ∧ [0x61#8].length ≤ 1 ∧ 7 < 8 := by decide

/-- The same input meets the second clause of LifeCycleFollowsTheTable. -/
theorem witness_HardwareResetClearsEveryElement :
    ({ finalized15 with inputs := [.hardwareReset none] } : State).inputs = .hardwareReset none :: [] := rfl

/-- An engine right after the key load, with a UPD of 8 bytes offered. -/
theorem witness_EveryStepKeepsTheInvariants :
    Inv (offering [encode (.upd 8 stdK0)] keyed) ∧ ∃ t, step (offering [encode (.upd 8 stdK0)] keyed) = .next t :=
  ⟨⟨keyed_inv.bufCount, keyed_inv.stageCount,
    fun h => ⟨rfl, rfl, ⟨(keyed_inv.fresh h).2.2.lanes, (keyed_inv.fresh h).2.2.tail, rfl⟩⟩,
    fun h => (keyed_inv.absorbing h).elim fun m hm => ⟨m, ⟨hm.lanes, hm.tail, hm.totalLen⟩⟩,
    keyed_inv.unkeyed⟩, _, rfl⟩

theorem witness_OneResponsePerCommandInOrder : 2 ≤ [encode .nop, encode .stat].length := by decide

theorem witness_DigestSerialisesLittleEndian : 7 < 8 := by decide

theorem witness_ResetStateHoldsZeros : 15 < 16 ∧ 7 < 8 := by decide

theorem witness_ResponsesRevealOnlyTheStatusFields :
    view keyed = view { keyed with k0 := 0, lanes := lanesC1 } ∧
    ∀ c ∈ [encode .stat, encode (.upd 1 0x61)], decode c ≠ .ok .fin := by decide

/-- A pair whose FIN is refused, and a pair whose FIN answers OK. -/
theorem witness_FinRevealsOnlyTheDigest :
    view finalized15 = view { finalized15 with k1 := 0 } ∧ view keyed = view { keyed with lanes := lanesC1 } := by
  decide

theorem witness_StepRunsTheDecodedCommand :
    (offering [encode .stat] keyed).inputs = .command (encode .stat) :: [] ∧ decode (encode .stat) = .ok .stat := by
  decide

theorem witness_IdleEngineKeepsItsState : keyed.inputs = [] := rfl

theorem witness_QueriesAreIdempotent :
    (Instr.nop = .nop) ∧ (Instr.stat = .stat) ∧ (∃ index, Instr.idq 1 = .idq index) := ⟨rfl, rfl, 1, rfl⟩

/-- One word for each of the five cases of 30_encoding.md R66. -/
theorem witness_IllegalWordsAreAnsweredIllegalCmd :
    (offering [⟨0x1000, 0⟩] keyed).inputs = .command ⟨0x1000, 0⟩ :: [] ∧ (0x1000#16).extractLsb' 12 4 ≠ 0 ∧
    0x08 ≤ ((0x0008#16).extractLsb' 0 8).toNat ∧
    (((0x0106#16).extractLsb' 0 8).toNat ∈ [0x00, 0x02, 0x03, 0x05, 0x06] ∧ (0x0106#16).extractLsb' 8 4 ≠ 0) ∧
    (((0x0904#16).extractLsb' 0 8).toNat ∈ [0x01, 0x04] ∧ 8 < ((0x0904#16).extractLsb' 8 4).toNat) ∧
    (((0x0207#16).extractLsb' 0 8).toNat = 0x07 ∧ 1 < ((0x0207#16).extractLsb' 8 4).toNat) := by decide

theorem witness_DecodeOfEncodeIsTheCommand :
    wellFormed (.keyb 8 stdK0) = true ∧ wellFormed (.upd 8 stdK1) = true ∧ wellFormed (.idq 1) = true := by decide

theorem witness_EncodeOfDecodeIsTheWord :
    decode ⟨0x0801, stdK0⟩ = .ok (.keyb 8 stdK0) ∧ (∃ n d, Instr.keyb 8 stdK0 = .keyb n d ∨ Instr.keyb 8 stdK0 = .upd n d) :=
  ⟨by decide, 8, stdK0, .inl rfl⟩

/-- V-H4's operands, and a command without data. -/
theorem witness_IgnoredOperandBitsChangeNothing :
    (((0x0104#16).extractLsb' 0 8).toNat ∈ [0x01, 0x04] →
      ∀ j : Nat, j < ((0x0104#16).extractLsb' 8 4).toNat →
        (0xffffffffffffff61#64).extractLsb' (8 * j) 8 = (0x61#64).extractLsb' (8 * j) 8) ∧
    ((0x0005#16).extractLsb' 0 8).toNat ∉ [0x01, 0x04] := by decide

theorem witness_AssembledLinesAreLegal :
    (∀ c d, AsmLine.hash [0x61] ≠ .raw c d) ∧
    assemble (.hash [0x61]) = some [⟨0x0003, 0⟩, ⟨0x0104, 0x61⟩, ⟨0x0005, 0⟩] := by
  constructor
  · intro c d h
    cases h
  · decide

theorem witness_KeybStagesItsBytes : (8#4).toNat ≤ 8 ∧ 15 < 16 := by decide

theorem witness_KeycCommitsSixteenBytes :
    staged16.ksCnt.val = 16 ∧ ({ staged16 with ksCnt := 17 } : State).ksCnt.val ≠ 16 ∧ 7 < 8 := by decide

/-- A KEYC that changes the key, and a hardware reset that clears it. -/
theorem witness_KeyChangesOnlyAtCommitOrReset :
    nextIs (step (offering [encode .keyc] staged16)) (fun t => t.k0 != staged16.k0) = true ∧
    nextIs (step { keyed with inputs := [.hardwareReset none] }) (fun t => t.k1 != keyed.k1) = true := by decide

theorem witness_RecommittingTheKeyIsReset :
    ({ keyed with ksCnt := 16 } : State).ksCnt.val = 16 ∧ keyed.fsm ≠ .unkeyed ∧
    keyed.k0 = le (keyed.ks.toList.take 8) ∧ keyed.k1 = le (keyed.ks.toList.drop 8) := by decide

/-- With nothing staged, and with the least and the greatest count staged before the load. -/
theorem witness_KeyLoadCommitsBothHalves :
    absorbing15.ksCnt = 0 ∧ ({ absorbing15 with ksCnt := 1 } : State).ksCnt ≠ 0 ∧
    ({ absorbing15 with ksCnt := 17 } : State).ksCnt ≠ 0 := by decide

theorem witness_FinalBlockHoldsTailAndLength :
    6 < absorbing15.bufCnt.val ∧ keyed.bufCnt.val ≤ 0 ∧ 6 < 7 := by decide

theorem witness_RstReinitialisesUnderTheKey : finalized15.fsm ≠ .unkeyed ∧ State.reset.fsm = .unkeyed := by decide

theorem witness_UpdAbsorbsItsBytes :
    (8#4).toNat ≤ 8 ∧ (keyed.fsm = .fresh ∨ keyed.fsm = .absorbing) ∧
    (absorbing15.fsm = .fresh ∨ absorbing15.fsm = .absorbing) ∧
    (1#4).toNat ≤ 8 ∧ ¬ absorbing15.bufCnt.val + (1#4).toNat < 8 ∧ keyed.bufCnt.val + (7#4).toNat < 8 ∧
    State.reset.fsm = .unkeyed ∧ finalized15.fsm = .finalized := by decide

theorem witness_FinReturnsTheDigest :
    (absorbing15.fsm = .fresh ∨ absorbing15.fsm = .absorbing) ∧ State.reset.fsm = .unkeyed ∧
    finalized15.fsm = .finalized := by decide

/-- V-S4 against V-S5, and the empty sequence against a UPD of no bytes. -/
theorem witness_ChunkingDoesNotMatter :
    (keyed.fsm = .fresh ∨ keyed.fsm = .absorbing) ∧
    Legal [(2, 0x6261), (4, 0x66656463)] ∧ Legal [(6, 0x666564636261)] ∧
    stream [(2, 0x6261), (4, 0x66656463)] = stream [(6, 0x666564636261)] ∧
    Legal [] ∧ Legal [(0, 0)] ∧ stream [] = stream [(0, 0)] := by
  refine ⟨.inl rfl, ?_, ?_, by decide, ?_, ?_, by decide⟩
  all_goals
    intro p hp
    simp at hp
  all_goals
    rcases hp with rfl | rfl <;> decide

theorem witness_DigestIsSipHash :
    Legal [(8, stdK0)] ∧ staged16.ksCnt.val = 16 ∧ keyed.fsm ≠ .unkeyed ∧
    keyed.k0 = le (stdKey.toList.take 8) ∧ keyed.k1 = le (stdKey.toList.drop 8) := by
  refine ⟨?_, by decide, by decide, by decide, by decide⟩
  intro p hp
  simp at hp
  subst hp
  decide

theorem witness_HashLineReturnsTheHash : finalized15.fsm ≠ .unkeyed := by decide

/-- Messages of 7, 8 and 256 bytes from an engine right after the key load. -/
theorem witness_LengthBoundariesHold :
    keyed.fsm = .fresh ∧ Inv keyed ∧ Legal [(7, 0)] ∧ (stream [(7, 0)]).length < 8 ∧
    Legal [(8, 0)] ∧ (stream [(8, 0)]).length = 8 ∧
    Legal (List.replicate 32 (8, 0)) ∧ 256 ∣ (stream (List.replicate 32 (8, 0))).length := by
  refine ⟨rfl, keyed_inv, ?_, by decide, ?_, by decide, ?_, by simp [stream]⟩
  all_goals
    intro p hp
    first
      | (obtain ⟨_, rfl⟩ := List.mem_replicate.mp hp; decide)
      | (simp at hp; subst hp; decide)

/-- One legal and one illegal word of each opcode, for the encoding clauses of the eight commands' statements. -/
theorem witness_EncodedAs :
    (0x0000#16).extractLsb' 0 8 = (0x00 : BitVec 8) ∧ (0x0100#16).extractLsb' 0 8 = (0x00 : BitVec 8) ∧
    (0x0801#16).extractLsb' 0 8 = (0x01 : BitVec 8) ∧ (0x0901#16).extractLsb' 0 8 = (0x01 : BitVec 8) ∧
    (0x0002#16).extractLsb' 0 8 = (0x02 : BitVec 8) ∧ (0x0102#16).extractLsb' 0 8 = (0x02 : BitVec 8) ∧
    (0x0003#16).extractLsb' 0 8 = (0x03 : BitVec 8) ∧ (0x1003#16).extractLsb' 0 8 = (0x03 : BitVec 8) ∧
    (0x0804#16).extractLsb' 0 8 = (0x04 : BitVec 8) ∧ (0x0904#16).extractLsb' 0 8 = (0x04 : BitVec 8) ∧
    (0x0005#16).extractLsb' 0 8 = (0x05 : BitVec 8) ∧ (0x0105#16).extractLsb' 0 8 = (0x05 : BitVec 8) ∧
    (0x0006#16).extractLsb' 0 8 = (0x06 : BitVec 8) ∧ (0x0106#16).extractLsb' 0 8 = (0x06 : BitVec 8) ∧
    (0x0107#16).extractLsb' 0 8 = (0x07 : BitVec 8) ∧ (0x0207#16).extractLsb' 0 8 = (0x07 : BitVec 8) := by decide

end Sys2Proof.Tests
end

/-! PROOFS. The byte order of 00_scope.md. -/

namespace Sys2Proof.Proofs

open Sys2Proof.Machine Sys2Proof.Laws

/-- Settles O1: `le_byte` names the byte at position j, the list's own below its length and 0 above. -/
theorem littleEndianWordHoldsEachByte : Obligations.LittleEndianWordHoldsEachByte := by
  intro bytes hlen
  constructor
  · intro j hj
    rw [le_byte bytes j (by omega), List.getElem?_eq_getElem hj, Option.getD_some]
  · intro j habove hj
    rw [le_byte bytes j hj, List.getElem?_eq_none habove, Option.getD_none]

end Sys2Proof.Proofs

/-! PROOFS. State and reset, the life cycle, and what the host can observe (10_state.md). -/

namespace Sys2Proof.Proofs

open Sys2Proof.Machine Sys2Proof.Safety Sys2Proof.Laws

/-! ## What a transaction and a hardware reset run -/

theorem accept_of_decode_ok {c : Command} {i : Instr} (h : decode c = .ok i) (s : State) :
    accept c s = exec i s := by
  unfold accept
  rw [h]

theorem accept_of_decode_error {c : Command} {e : Illegal} (h : decode c = .error e) (s : State) :
    accept c s = .next (raiseIllegal c.cmd s) := by
  unfold accept
  rw [h]

theorem step_of_hardwareReset {s : State} {cut : Option Command} {rest : List HostInput}
    (h : s.inputs = .hardwareReset cut :: rest) : step s = .next (hardwareReset { s with inputs := rest }) := by
  simp [step, takeInput, h]

/-! ## The commands that check LEN or FSM, their checks written out -/

theorem exec_keyb {n : BitVec 4} (hn : n.toNat ≤ 8) (opd : Word64) (s : State) :
    exec (.keyb n opd) s = .next (respond .ok 0 (stageBytes s (dataBytes n.toNat opd))) :=
  congrArg _ (if_pos hn)

theorem exec_rst (s : State) :
    exec .rst s = .next (if s.fsm = .unkeyed then raise .noKey 0 s
      else respond .ok 0 { laneInit s with fsm := .fresh }) :=
  congrArg _ (withKey_eq _ s)

theorem exec_upd {n : BitVec 4} (hn : n.toNat ≤ 8) (opd : Word64) (s : State) :
    exec (.upd n opd) s = .next (if s.fsm = .unkeyed then raise .noKey 0 s
      else if s.fsm = .finalized then raise .sequence 0 s
      else respond .ok 0 (update n opd s)) :=
  congrArg _ ((if_pos hn).trans (withOpenMessage_eq _ s))

theorem exec_fin (s : State) :
    exec .fin s = .next (if s.fsm = .unkeyed then raise .noKey 0 s
      else if s.fsm = .finalized then raise .sequence 0 s
      else respond .ok (digest (finalLanes (finalBlock s) s.lanes)) (finalize s)) :=
  congrArg _ (withOpenMessage_eq _ s)

theorem exec_idq {index : BitVec 4} (hi : index.toNat ≤ 1) (s : State) :
    exec (.idq index) s = .next (respond .ok (identifierWord index) s) :=
  congrArg _ (if_pos hi)

/-! ## Reset and the life cycle -/

@[simp] theorem reset_ks_getElem (i : Nat) (h : i < 16) : State.reset.ks[i] = 0 :=
  Vector.getElem_replicate h

@[simp] theorem reset_buf_getElem (i : Nat) (h : i < 8) : State.reset.buf[i] = 0 :=
  Vector.getElem_replicate h

/-- Settles O3: the scalars by the definition of the reset state, the bytes by `reset_ks_getElem` and
`reset_buf_getElem`, the status word by evaluation. -/
theorem resetStateHoldsZeros : Obligations.ResetStateHoldsZeros :=
  ⟨rfl, rfl, rfl, rfl, reset_ks_getElem, rfl, rfl, reset_buf_getElem, rfl, rfl, by decide⟩

/-- Settles O7: the row of R26's table for each command, a case for each life-cycle state where the command reads
FSM. A decoded UPD, KEYB or IDQ has its LEN in range, so it never answers ILLEGAL_CMD. -/
theorem lifeCycleFollowsTheTable : Obligations.LifeCycleFollowsTheTable := by
  refine ⟨⟨rfl, rfl, rfl, rfl⟩, fun s cut rest h => ⟨_, step_of_hardwareReset h, rfl⟩, fun c s => ?_⟩
  cases hd : decode c with
  | error e => exact ⟨_, accept_of_decode_error hd s, rfl⟩
  | ok i =>
    rw [accept_of_decode_ok hd]
    have hw := decode_ok_wellFormed hd
    cases i with
    | nop => exact ⟨_, rfl, rfl⟩
    | keyb n opd => exact ⟨_, exec_keyb (of_decide_eq_true hw) opd s, stageBytes_fsm s _⟩
    | keyc =>
      refine ⟨_, rfl, ?_⟩
      by_cases h : s.ksCnt.val = 16 <;> simp [h, Config.keyBytes]
    | rst =>
      refine ⟨_, exec_rst s, ?_⟩
      cases h : s.fsm <;> simp [h]
    | upd n opd =>
      refine ⟨_, exec_upd (of_decide_eq_true hw) opd s, ?_⟩
      cases h : s.fsm <;> simp [h]
    | fin =>
      refine ⟨_, exec_fin s, ?_⟩
      cases h : s.fsm <;> simp [h]
    | stat => exact ⟨_, rfl, rfl⟩
    | idq index => exact ⟨_, exec_idq (of_decide_eq_true hw) s, rfl⟩

/-! ## What STAT shows after each command -/

theorem view_eq_iff {s s' : State} :
    view s = view s' ↔
      s.fsm = s'.fsm ∧ s.bufCnt = s'.bufCnt ∧ s.totalLen = s'.totalLen ∧ s.ksCnt = s'.ksCnt := by
  simp [view]

/-- The status word is made of the four observable fields and the fixed parameters (43_query.md R111). -/
theorem statusWord_eq_of_view_eq {s s' : State} (h : view s = view s') : statusWord s = statusWord s' := by
  obtain ⟨hfsm, hbuf, htotal, hks⟩ := view_eq_iff.mp h
  simp [statusWord, hfsm, hbuf, htotal, hks]

theorem absorbByte_bufCnt (s : State) (b : Byte) :
    (absorbByte s b).bufCnt.val = (s.bufCnt.val + 1) % 8 := by
  have hlt := s.bufCnt.isLt
  by_cases h : s.bufCnt.val + 1 < 8
  · simp [absorbByte, Config.blockBytes, h, Nat.mod_eq_of_lt h]
  · have h8 : s.bufCnt.val + 1 = 8 := by omega
    simp [absorbByte, Config.blockBytes, h8]

/-- BUF_CNT counts the bytes modulo the block length (42_hasher.md R101). -/
theorem absorbBytes_bufCnt (s : State) (bytes : List Byte) :
    (absorbBytes s bytes).bufCnt.val = (s.bufCnt.val + bytes.length) % 8 := by
  induction bytes generalizing s with
  | nil => exact (Nat.mod_eq_of_lt s.bufCnt.isLt).symm
  | cons b bs ih =>
    show (absorbBytes (absorbByte s b) bs).bufCnt.val = _
    rw [ih, absorbByte_bufCnt, List.length_cons]
    omega

theorem view_stageBytes_eq {s s' : State} (h : view s = view s') (bytes : List Byte) :
    view (stageBytes s bytes) = view (stageBytes s' bytes) := by
  obtain ⟨hfsm, hbuf, htotal, hks⟩ := view_eq_iff.mp h
  have hcnt : (stageBytes s bytes).ksCnt = (stageBytes s' bytes).ksCnt := by
    apply Fin.ext
    rw [stageBytes_ksCnt, stageBytes_ksCnt, hks]
  simp [view_eq_iff, hfsm, hbuf, htotal, hcnt]

theorem view_update_eq {s s' : State} (h : view s = view s') (n : BitVec 4) (opd : Word64) :
    view (update n opd s) = view (update n opd s') := by
  obtain ⟨-, hbuf, htotal, hks⟩ := view_eq_iff.mp h
  have hcnt : (update n opd s).bufCnt = (update n opd s').bufCnt := by
    apply Fin.ext
    simp only [update_bufCnt]
    rw [absorbBytes_bufCnt, absorbBytes_bufCnt, hbuf]
  exact view_eq_iff.mpr ⟨rfl, hcnt, by simp [htotal], by simp [hks]⟩

theorem view_finalize_eq {s s' : State} (h : view s = view s') : view (finalize s) = view (finalize s') := by
  obtain ⟨-, hbuf, htotal, hks⟩ := view_eq_iff.mp h
  exact view_eq_iff.mpr ⟨rfl, hbuf, htotal, hks⟩

/-! ## Noninterference -/

/-- From `s` to `t` and from `s'` to `t'` the engine gave one and the same response, and STAT cannot tell `t` and
`t'` apart. -/
def AnsweredAlike (s s' t t' : State) : Prop :=
  ∃ r, t.responses = s.responses ++ [r] ∧ t'.responses = s'.responses ++ [r] ∧ view t = view t'

/-- The same response after writes `u` and `u'` that give none themselves and look alike to STAT. -/
theorem respond_answeredAlike {s s' u u' : State} {rdata rdata' : Word64} (code : RespCode)
    (hrdata : rdata = rdata') (hu : u.responses = s.responses) (hu' : u'.responses = s'.responses)
    (hv : view u = view u') : AnsweredAlike s s' (respond code rdata u) (respond code rdata' u') :=
  ⟨⟨code, rdata⟩, by simp [hu], by simp [hu', hrdata], hv⟩

theorem raise_answeredAlike {s s' : State} (hv : view s = view s') (code : RespCode) (rdata : Word64) :
    AnsweredAlike s s' (raise code rdata s) (raise code rdata s') :=
  respond_answeredAlike code rfl rfl rfl hv

/-- No command but FIN reads more than STAT's fields into its response or into those fields. -/
theorem exec_answeredAlike {i : Instr} {s s' : State} (hw : wellFormed i = true) (hfin : i ≠ .fin)
    (hv : view s = view s') :
    ∃ t t', exec i s = .next t ∧ exec i s' = .next t' ∧ AnsweredAlike s s' t t' := by
  obtain ⟨hfsm, hbuf, htotal, hks⟩ := view_eq_iff.mp hv
  cases i with
  | nop => exact ⟨_, _, rfl, rfl, respond_answeredAlike .ok rfl rfl rfl hv⟩
  | keyb n opd =>
    have hn : n.toNat ≤ 8 := of_decide_eq_true hw
    exact ⟨_, _, exec_keyb hn opd s, exec_keyb hn opd s',
      respond_answeredAlike .ok rfl (stageBytes_responses s _) (stageBytes_responses s' _) (view_stageBytes_eq hv _)⟩
  | keyc =>
    refine ⟨_, _, rfl, rfl, ?_⟩
    rw [← hks]
    split
    · exact respond_answeredAlike .ok rfl rfl rfl rfl
    · exact respond_answeredAlike .invalidKeyLength rfl rfl rfl (view_eq_iff.mpr ⟨hfsm, hbuf, htotal, rfl⟩)
  | rst =>
    refine ⟨_, _, exec_rst s, exec_rst s', ?_⟩
    rw [← hfsm]
    split
    · exact raise_answeredAlike hv _ _
    · exact respond_answeredAlike .ok rfl rfl rfl (view_eq_iff.mpr ⟨rfl, rfl, rfl, hks⟩)
  | upd n opd =>
    have hn : n.toNat ≤ 8 := of_decide_eq_true hw
    refine ⟨_, _, exec_upd hn opd s, exec_upd hn opd s', ?_⟩
    rw [← hfsm]
    split_ifs
    · exact raise_answeredAlike hv _ _
    · exact raise_answeredAlike hv _ _
    · exact respond_answeredAlike .ok rfl (update_responses n opd s) (update_responses n opd s')
        (view_update_eq hv n opd)
  | fin => exact absurd rfl hfin
  | stat => exact ⟨_, _, rfl, rfl, respond_answeredAlike .ok (statusWord_eq_of_view_eq hv) rfl rfl hv⟩
  | idq index =>
    have hi : index.toNat ≤ 1 := of_decide_eq_true hw
    exact ⟨_, _, exec_idq hi s, exec_idq hi s', respond_answeredAlike .ok rfl rfl rfl hv⟩

theorem accept_answeredAlike {c : Command} {s s' : State} (hfin : decode c ≠ .ok .fin) (hv : view s = view s') :
    ∃ t t', accept c s = .next t ∧ accept c s' = .next t' ∧ AnsweredAlike s s' t t' := by
  cases hd : decode c with
  | error e =>
    exact ⟨_, _, accept_of_decode_error hd s, accept_of_decode_error hd s', raise_answeredAlike hv _ _⟩
  | ok i =>
    rw [accept_of_decode_ok hd, accept_of_decode_ok hd]
    exact exec_answeredAlike (decode_ok_wellFormed hd) (fun hi => hfin (hi ▸ hd)) hv

theorem after_cons_of_accept {c : Command} {s t : State} (h : accept c s = .next t) (cs : List Command) :
    after s (c :: cs) = after t cs := by
  rw [after, h]

/-- Settles O8, by induction on the transactions: `accept_answeredAlike` is the step, and views that are equal after
one transaction are what the rest needs. -/
theorem responsesRevealOnlyTheStatusFields : Obligations.ResponsesRevealOnlyTheStatusFields := by
  intro cs
  induction cs with
  | nil => exact fun s s' hv _ => ⟨s, s', [], rfl, rfl, by simp, by simp, hv⟩
  | cons c cs ih =>
    intro s s' hv hfin
    obtain ⟨t, t', ht, ht', r, hr, hr', hvt⟩ := accept_answeredAlike (hfin c (by simp)) hv
    obtain ⟨u, u', rs, hu, hu', hrs, hrs', hvu⟩ := ih t t' hvt fun d hd => hfin d (by simp [hd])
    refine ⟨u, u', r :: rs, ?_, ?_, by simp [hrs, hr], by simp [hrs', hr'], hvu⟩
    · rw [after_cons_of_accept ht, hu]
    · rw [after_cons_of_accept ht', hu']

/-- Settles O9: equal FSM fields send both engines through the same check, and a FIN that passes them writes no
field of STAT but FSM. -/
theorem finRevealsOnlyTheDigest : Obligations.FinRevealsOnlyTheDigest := by
  intro s s' hv
  have hfinal : view (finalize s) = view (finalize s') := view_finalize_eq hv
  rw [exec_fin, exec_fin, ← (view_eq_iff.mp hv).1]
  split_ifs
  · exact ⟨_, _, ⟨.noKey, 0⟩, _, rfl, rfl, rfl, rfl, rfl, nofun, fun _ => rfl, hv⟩
  · exact ⟨_, _, ⟨.sequence, 0⟩, _, rfl, rfl, rfl, rfl, rfl, nofun, fun _ => rfl, hv⟩
  · exact ⟨_, _, ⟨.ok, _⟩, _, rfl, rfl, rfl, rfl, rfl, fun _ => ⟨rfl, rfl⟩, fun h => absurd rfl h, hfinal⟩

end Sys2Proof.Proofs

/-! PROOFS. The byte order of digests, the order of commands, and the commands that change nothing (20_memory.md). -/

namespace Sys2Proof.Proofs

open Sys2Proof.Machine Sys2Proof.Safety Sys2Proof.Laws

/-! ## Digest serialisation -/

/-- The mask and the shift of R44 pick the bytes that the operand bytes of R63 are. -/
theorem digestBytes_eq_dataBytes (d : Word64) : digestBytes d = dataBytes 8 d := by
  refine List.map_congr_left fun i _ => ?_
  have hmask : (0xff : Word64).setWidth 8 = BitVec.allOnes 8 := by decide
  rw [BitVec.setWidth_and, hmask, BitVec.and_allOnes, dbyte, BitVec.setWidth_ushiftRight_eq_extractLsb]

/-- Settles O2: the serialised bytes are the word's eight data bytes, whose LE is the word (`le_dataBytes`). -/
theorem digestSerialisesLittleEndian : Obligations.DigestSerialisesLittleEndian := by
  intro d
  rw [digestBytes_eq_dataBytes]
  refine ⟨dataBytes_length 8 d, le_dataBytes d, fun i hi => ?_⟩
  have hlen : i < (dataBytes 8 d).length := (dataBytes_length 8 d).symm ▸ hi
  rw [List.getElem?_eq_getElem hlen, dataBytes_getElem, dbyte]

/-! ## No command reads or writes the inputs still offered -/

/-- What `f` does to the rest of the state does not depend on the inputs still offered, and leaves them alone. -/
def IgnoresInputs (f : State → State) : Prop :=
  ∀ (s : State) (inputs : List HostInput), f { s with inputs := inputs } = { f s with inputs := inputs }

theorem foldl_ignoresInputs {f : State → Byte → State} (hf : ∀ b, IgnoresInputs (f · b)) (bytes : List Byte) :
    IgnoresInputs fun s => bytes.foldl f s := fun _ inputs =>
  List.foldl_hom (fun s : State => { s with inputs := inputs }) fun s b => hf b s inputs

theorem stageBytes_ignoresInputs (bytes : List Byte) : IgnoresInputs (stageBytes · bytes) :=
  foldl_ignoresInputs (fun _ _ _ => rfl) bytes

theorem absorbBytes_ignoresInputs (bytes : List Byte) : IgnoresInputs (absorbBytes · bytes) :=
  foldl_ignoresInputs (fun _ _ _ => rfl) bytes

theorem update_ignoresInputs (n : BitVec 4) (opd : Word64) : IgnoresInputs (update n opd) := by
  intro s inputs
  have habsorb : absorbBytes { s with inputs := inputs } (dataBytes n.toNat opd) =
      { absorbBytes s (dataBytes n.toNat opd) with inputs := inputs } := absorbBytes_ignoresInputs _ s inputs
  rw [update, habsorb, update]

theorem IgnoresInputs.respond {f : State → State} (hf : IgnoresInputs f) (code : RespCode) (rdata : Word64) :
    IgnoresInputs fun s => respond code rdata (f s) := fun s inputs =>
  congrArg (Machine.respond code rdata) (hf s inputs)

theorem IgnoresInputs.withLegalLen {body : State → State} (hbody : IgnoresInputs body) (max : Nat) (len : BitVec 4)
    (i : Instr) : IgnoresInputs (withLegalLen max len i body) := by
  intro s inputs
  unfold Machine.withLegalLen
  split
  · exact hbody s inputs
  · rfl

theorem IgnoresInputs.withKey {body : State → State} (hbody : IgnoresInputs body) : IgnoresInputs (withKey body) := by
  intro s inputs
  simp only [withKey_eq]
  split
  · rfl
  · exact hbody s inputs

theorem IgnoresInputs.withOpenMessage {body : State → State} (hbody : IgnoresInputs body) :
    IgnoresInputs (withOpenMessage body) := by
  intro s inputs
  simp only [withOpenMessage_eq]
  split_ifs
  · rfl
  · rfl
  · exact hbody s inputs

/-- Every command is a total function on states that ignores the inputs still offered. -/
theorem exec_ignoresInputs (i : Instr) : ∃ f, IgnoresInputs f ∧ ∀ s, exec i s = .next (f s) := by
  cases i with
  | nop => exact ⟨_, fun _ _ => rfl, fun _ => rfl⟩
  | keyb n opd => exact ⟨_, ((stageBytes_ignoresInputs _).respond .ok 0).withLegalLen _ _ _, fun _ => rfl⟩
  | keyc =>
    refine ⟨_, fun s inputs => ?_, fun _ => rfl⟩
    simp only
    split
    · rfl
    · rfl
  | rst => exact ⟨_, IgnoresInputs.withKey fun _ _ => rfl, fun _ => rfl⟩
  | upd n opd =>
    exact ⟨_, ((update_ignoresInputs n opd).respond .ok 0).withOpenMessage.withLegalLen _ _ _, fun _ => rfl⟩
  | fin => exact ⟨_, IgnoresInputs.withOpenMessage fun _ _ => rfl, fun _ => rfl⟩
  | stat => exact ⟨_, fun _ _ => rfl, fun _ => rfl⟩
  | idq index => exact ⟨_, IgnoresInputs.withLegalLen (fun _ _ => rfl) _ _ _, fun _ => rfl⟩

theorem accept_ignoresInputs (c : Command) : ∃ f, IgnoresInputs f ∧ ∀ s, accept c s = .next (f s) := by
  cases hd : decode c with
  | error e => exact ⟨_, fun _ _ => rfl, accept_of_decode_error hd⟩
  | ok i =>
    obtain ⟨f, hf, hexec⟩ := exec_ignoresInputs i
    exact ⟨f, hf, fun s => (accept_of_decode_ok hd s).trans (hexec s)⟩

/-- A transaction is finished alike whatever the host offers after it, and gives one response. -/
theorem accept_offering (c : Command) (s : State) :
    ∃ t r, t.responses = s.responses ++ [r] ∧ ∀ cs, accept c (offering cs s) = .next (offering cs t) := by
  obtain ⟨f, hf, haccept⟩ := accept_ignoresInputs c
  obtain ⟨t, ht, r, hr, -⟩ := accept_responds c s
  obtain rfl : f s = t := Host.Outcome.next.inj ((haccept s).symm.trans ht)
  exact ⟨f s, r, hr, fun cs => (haccept _).trans (congrArg _ (hf s _))⟩

/-! ## Runs over the offered transactions -/

theorem step_offering_cons (c : Command) (cs : List Command) (s : State) :
    step (offering (c :: cs) s) = accept c (offering cs s) := rfl

theorem run_succ_of_step {M : Host.Core} {s t : M.State} (h : M.step s = .next t) (k : Nat) :
    M.run (k + 1) s = M.run k t := by
  rw [Host.Core.run, h]

/-- Settles O13, by induction on the offered transactions: `accept_offering` says that the first is finished with one
response and without a look at the others, which are then what is offered. -/
theorem oneResponsePerCommandInOrder : Obligations.OneResponsePerCommandInOrder := by
  intro s cs
  induction cs generalizing s with
  | nil =>
    refine ⟨[], rfl, fun k hk => ?_⟩
    obtain rfl : k = 0 := Nat.le_zero.mp hk
    exact ⟨_, rfl, rfl, (List.append_nil _).symm, rfl⟩
  | cons c cs ih =>
    obtain ⟨t, r, hr, haccept⟩ := accept_offering c s
    obtain ⟨rs, hlen, hrun⟩ := ih t
    refine ⟨r :: rs, by simp [hlen], fun k hk => ?_⟩
    cases k with
    | zero => exact ⟨_, rfl, rfl, (List.append_nil _).symm, rfl⟩
    | succ k =>
      obtain ⟨u, hu, hinputs, hresponses, hafter⟩ := hrun k (Nat.le_of_succ_le_succ hk)
      have hstep : Sys2Proof.core.step (offering (c :: cs) s) = .next (offering cs t) :=
        (step_offering_cons c cs s).trans (haccept cs)
      refine ⟨u, (run_succ_of_step hstep k).trans hu, hinputs, by simp [hresponses, hr], ?_⟩
      rw [List.take_succ_cons, after_cons_of_accept (haccept []), hafter]

/-! ## Queries -/

theorem respond_respond (code : RespCode) (rdata : Word64) (s : State) :
    respond code rdata (respond code rdata s) =
      { s with responses := s.responses ++ [⟨code, rdata⟩, ⟨code, rdata⟩] } := by
  simp [respond]

theorem exec_idq_of_index_above {index : BitVec 4} (hi : ¬ index.toNat ≤ 1) (s : State) :
    exec (.idq index) s = .next (raiseIllegal (encode (.idq index)).cmd s) :=
  congrArg _ (if_neg hi)

/-- Settles O15: a query's response is made of no earlier response, so the second is the first again
(`respond_respond`). An index above 1, which no word decodes to, is answered ILLEGAL_CMD both times. -/
theorem queriesAreIdempotent : Obligations.QueriesAreIdempotent := by
  rintro i s (rfl | rfl | ⟨index, rfl⟩)
  · exact ⟨⟨.ok, 0⟩, rfl, congrArg _ (respond_respond _ _ s)⟩
  · exact ⟨⟨.ok, statusWord s⟩, rfl, congrArg _ (respond_respond _ _ s)⟩
  · by_cases hi : index.toNat ≤ 1
    · exact ⟨_, exec_idq hi s, (exec_idq hi _).trans (congrArg _ (respond_respond _ _ s))⟩
    · exact ⟨_, exec_idq_of_index_above hi s,
        (exec_idq_of_index_above hi _).trans (congrArg _ (respond_respond _ _ s))⟩

end Sys2Proof.Proofs

/-! PROOFS. The opcode map, legal words, ignored operand bits and the assembler (30_encoding.md). -/

namespace Sys2Proof.Proofs

open Sys2Proof.Machine Sys2Proof.Safety Sys2Proof.Laws

/-! ## Command words by their fields -/

/-- Two command words are equal where their three fields are (30_encoding.md R61). -/
theorem word_ext_iff {w w' : CmdWord} :
    w = w' ↔ rsvField w = rsvField w' ∧ lenField w = lenField w' ∧ opField w = opField w' := by
  refine ⟨fun h => h ▸ ⟨rfl, rfl, rfl⟩, fun ⟨hrsv, hlen, hop⟩ => ?_⟩
  rw [word_of_fields w, word_of_fields w', hrsv, hlen, hop]

theorem eq_cmdWord_iff {w : CmdWord} {len : BitVec 4} {op : BitVec 8} :
    w = cmdWord len op ↔ rsvField w = 0 ∧ lenField w = len ∧ opField w = op := by
  rw [word_ext_iff, rsvField_cmdWord, lenField_cmdWord, opField_cmdWord]

/-- Which words a row's match and mask select: each field is masked on its own. -/
theorem and_eq_cmdWord_iff {w mask : CmdWord} {len : BitVec 4} {op : BitVec 8} :
    w &&& mask = cmdWord len op ↔
      rsvField w &&& rsvField mask = 0 ∧ lenField w &&& lenField mask = len ∧ opField w &&& opField mask = op := by
  rw [eq_cmdWord_iff, rsvField, lenField, opField, BitVec.extractLsb'_and, BitVec.extractLsb'_and,
    BitVec.extractLsb'_and]
  rfl

/-- A row with mask 0xFFFF fixes every field; its LEN is 0 (30_encoding.md R64). -/
theorem plainRow_iff (w : CmdWord) (op : BitVec 8) :
    w &&& 0xFFFF = cmdWord 0 op ↔ rsvField w = 0 ∧ (opField w).toNat = op.toNat ∧ lenField w = 0 := by
  have hmask : (0xFFFF : CmdWord) = BitVec.allOnes 16 := by decide
  rw [hmask, BitVec.and_allOnes, eq_cmdWord_iff, BitVec.toNat_inj, and_comm (b := _ = op)]

/-- A row with mask 0xF0FF leaves LEN open (30_encoding.md R64). -/
theorem dataRow_iff (w : CmdWord) (op : BitVec 8) :
    w &&& 0xF0FF = cmdWord 0 op ↔ rsvField w = 0 ∧ (opField w).toNat = op.toNat := by
  have hrsv : rsvField 0xF0FF = BitVec.allOnes 4 := by decide
  have hlen : lenField 0xF0FF = 0 := by decide
  have hop : opField 0xF0FF = BitVec.allOnes 8 := by decide
  rw [and_eq_cmdWord_iff, hrsv, hlen, hop, BitVec.and_allOnes, BitVec.and_allOnes, BitVec.toNat_inj]
  exact and_congr_right' (and_iff_right BitVec.and_zero)

theorem and_fourteen_eq_zero_iff (n : BitVec 4) : n &&& 0xE = 0 ↔ n.toNat ≤ 1 := by
  revert n
  decide

/-- A row with mask 0xFEFF leaves the lowest bit of LEN open (30_encoding.md R64). -/
theorem indexRow_iff (w : CmdWord) (op : BitVec 8) :
    w &&& 0xFEFF = cmdWord 0 op ↔ rsvField w = 0 ∧ (opField w).toNat = op.toNat ∧ (lenField w).toNat ≤ 1 := by
  have hrsv : rsvField 0xFEFF = BitVec.allOnes 4 := by decide
  have hlen : lenField 0xFEFF = 0xE := by decide
  have hop : opField 0xFEFF = BitVec.allOnes 8 := by decide
  rw [and_eq_cmdWord_iff, hrsv, hlen, hop, BitVec.and_allOnes, BitVec.and_allOnes, BitVec.toNat_inj,
    and_fourteen_eq_zero_iff, and_comm (b := _ = op)]

/-- Settles O17: `decode_ok_iff` gives the fields behind each command, the row lemmas the words that have them. -/
theorem opcodeMapDecodesEachRow : Obligations.OpcodeMapDecodesEachRow := by
  intro w opd
  simp only [decode_ok_iff]
  refine ⟨(plainRow_iff w 0x00).symm, fun n d => ?_, (plainRow_iff w 0x02).symm, (plainRow_iff w 0x03).symm,
    fun n d => ?_, (plainRow_iff w 0x05).symm, (plainRow_iff w 0x06).symm, fun index => ?_⟩
  · exact and_assoc.symm.trans (and_congr_left' (dataRow_iff w 0x01).symm)
  · exact and_assoc.symm.trans (and_congr_left' (dataRow_iff w 0x04).symm)
  · rw [show (0x0007 : CmdWord) = cmdWord 0 0x07 from rfl, indexRow_iff]
    constructor
    · rintro ⟨hrsv, hop, rfl, hindex⟩
      exact ⟨⟨hrsv, hop, hindex⟩, rfl⟩
    · rintro ⟨⟨hrsv, hop, hindex⟩, rfl⟩
      exact ⟨hrsv, hop, rfl, hindex⟩

/-! ## Legal words and the engine's answer to the others -/

/-- Legal(CMD) on the fields of the word, one case for each opcode of the map (30_encoding.md R65). -/
theorem legal_iff (w : CmdWord) :
    legal w = true ↔ rsvField w = 0 ∧
      (((opField w).toNat ∈ [0x00, 0x02, 0x03, 0x05, 0x06] ∧ lenField w = 0) ∨
        ((opField w).toNat ∈ [0x01, 0x04] ∧ (lenField w).toNat ≤ 8) ∨
        ((opField w).toNat = 0x07 ∧ (lenField w).toNat ≤ 1)) := by
  rw [legal, Bool.and_eq_true, beq_iff_eq]
  refine and_congr_right fun _ => ?_
  split <;> simp_all

/-- The decoder answers a command exactly for the legal words, whatever the operand. -/
theorem exists_decode_ok_iff (c : Command) : (∃ i, decode c = .ok i) ↔ legal c.cmd = true := by
  simp only [legal_iff, decode_ok_iff]
  constructor
  · rintro ⟨i, hrsv, hread⟩
    refine ⟨hrsv, ?_⟩
    cases i with
    | nop | keyc | rst | fin | stat =>
      obtain ⟨hop, hlen⟩ := hread
      exact .inl ⟨by simp [hop], hlen⟩
    | keyb n opd | upd n opd =>
      obtain ⟨hop, rfl, hlen, -⟩ := hread
      exact .inr (.inl ⟨by simp [hop], hlen⟩)
    | idq index =>
      obtain ⟨hop, rfl, hindex⟩ := hread
      exact .inr (.inr ⟨hop, hindex⟩)
  · rintro ⟨hrsv, ⟨hop, hlen⟩ | ⟨hop, hlen⟩ | ⟨hop, hindex⟩⟩
    · simp only [List.mem_cons, List.not_mem_nil, or_false] at hop
      obtain hop | hop | hop | hop | hop := hop
      · exact ⟨.nop, hrsv, hop, hlen⟩
      · exact ⟨.keyc, hrsv, hop, hlen⟩
      · exact ⟨.rst, hrsv, hop, hlen⟩
      · exact ⟨.fin, hrsv, hop, hlen⟩
      · exact ⟨.stat, hrsv, hop, hlen⟩
    · simp only [List.mem_cons, List.not_mem_nil, or_false] at hop
      obtain hop | hop := hop
      · exact ⟨.keyb (lenField c.cmd) c.opd, hrsv, hop, rfl, hlen, rfl⟩
      · exact ⟨.upd (lenField c.cmd) c.opd, hrsv, hop, rfl, hlen, rfl⟩
    · exact ⟨.idq (lenField c.cmd), hrsv, hop, rfl, hindex⟩

/-- The encoding of a decoded command has the word it was read from. -/
theorem encode_cmd_of_decode_ok {c : Command} {i : Instr} (h : decode c = .ok i) : (encode i).cmd = c.cmd := by
  obtain ⟨hrsv, hread⟩ := (decode_ok_iff c i).mp h
  symm
  cases i with
  | nop | keyc | rst | fin | stat =>
    obtain ⟨hop, hlen⟩ := hread
    exact eq_cmdWord_iff.mpr ⟨hrsv, hlen, BitVec.eq_of_toNat_eq hop⟩
  | keyb n opd | upd n opd | idq index =>
    obtain ⟨hop, hlen, -⟩ := hread
    exact eq_cmdWord_iff.mpr ⟨hrsv, hlen.symm, BitVec.eq_of_toNat_eq hop⟩

/-- An illegal word is answered ILLEGAL_CMD with zext_64(CMD), and no element changes (30_encoding.md R66). -/
theorem accept_of_illegal {c : Command} (h : ¬ legal c.cmd = true) (s : State) :
    accept c s = .next { s with responses := s.responses ++ [⟨.illegalCmd, c.cmd.setWidth 64⟩] } := by
  cases hd : decode c with
  | error e => exact accept_of_decode_error hd s
  | ok i => exact absurd ((exists_decode_ok_iff c).mp ⟨i, hd⟩) h

/-- Settles O19: the condition is `legal_iff`'s, `exists_decode_ok_iff` gives the command of a legal word, and
`accept_of_illegal` answers the others. -/
theorem legalWordsAreDispatched : Obligations.LegalWordsAreDispatched := by
  intro c s
  split
  next h =>
    have hlegal : legal c.cmd = true := (legal_iff c.cmd).mpr h
    obtain ⟨i, hi⟩ := (exists_decode_ok_iff c).mpr hlegal
    exact ⟨hlegal, i, hi, accept_of_decode_ok hi s, congrArg _ (encode_cmd_of_decode_ok hi)⟩
  next h =>
    have hlegal : ¬ legal c.cmd = true := fun hl => h ((legal_iff c.cmd).mp hl)
    exact ⟨Bool.eq_false_of_not_eq_true hlegal, accept_of_illegal hlegal s⟩

/-! ## The step of an offered transaction -/

theorem step_of_command {s : State} {c : Command} {rest : List HostInput} (h : s.inputs = .command c :: rest) :
    step s = accept c { s with inputs := rest } := by
  simp [step, takeInput, h]

/-- Settles O10: the step accepts the transaction, and accepting a decoded command runs it. -/
theorem stepRunsTheDecodedCommand : Obligations.StepRunsTheDecodedCommand := fun _ _ _ _ hinputs hdecode =>
  (step_of_command hinputs).trans (accept_of_decode_ok hdecode _)

/-- The five cases of an illegal word (30_encoding.md R66). -/
theorem not_legal_of_illegal_case {w : CmdWord}
    (h : rsvField w ≠ 0 ∨ 0x08 ≤ (opField w).toNat ∨
      ((opField w).toNat ∈ [0x00, 0x02, 0x03, 0x05, 0x06] ∧ lenField w ≠ 0) ∨
      ((opField w).toNat ∈ [0x01, 0x04] ∧ 8 < (lenField w).toNat) ∨
      ((opField w).toNat = 0x07 ∧ 1 < (lenField w).toNat)) : ¬ legal w = true := by
  rw [legal_iff]
  rintro ⟨hrsv, hfields⟩
  simp only [List.mem_cons, List.not_mem_nil, or_false] at h hfields
  obtain hrsv' | hop | ⟨hop, hlen⟩ | ⟨hop, hlen⟩ | ⟨hop, hindex⟩ := h
  · exact hrsv' hrsv
  · omega
  · obtain ⟨-, hzero⟩ | hdata := hfields
    · exact hlen hzero
    · omega
  · omega
  · omega

/-- Settles O20: none of the five cases is legal, and `accept_of_illegal` answers before any other check. -/
theorem illegalWordsAreAnsweredIllegalCmd : Obligations.IllegalWordsAreAnsweredIllegalCmd := by
  intro s w opd rest hinputs hcase
  have hlegal : ¬ legal w = true := not_legal_of_illegal_case hcase
  exact (step_of_command hinputs).trans (accept_of_illegal (c := ⟨w, opd⟩) hlegal _)

/-! ## Encodings read back -/

/-- Settles O23: the decoder evaluated on the twelve words. -/
theorem workedEncodingsDecode : Obligations.WorkedEncodingsDecode := by
  unfold Obligations.WorkedEncodingsDecode
  decide

/-- The decoder reads back a well-formed command (30_encoding.md R64, R70): RSV, OP and LEN are what the encoder put
there, and LEN is in its range. -/
theorem decode_encode {i : Instr} (hw : wellFormed i = true) : decode (encode i) = .ok i := by
  rw [decode_ok_iff]
  cases i with
  | nop | keyc | rst | fin | stat =>
    exact ⟨rsvField_cmdWord _ _, congrArg _ (opField_cmdWord _ _), lenField_cmdWord _ _⟩
  | keyb n opd | upd n opd =>
    exact ⟨rsvField_cmdWord _ _, congrArg _ (opField_cmdWord _ _), (lenField_cmdWord _ _).symm,
      of_decide_eq_true hw, rfl⟩
  | idq index =>
    exact ⟨rsvField_cmdWord _ _, congrArg _ (opField_cmdWord _ _), (lenField_cmdWord _ _).symm,
      of_decide_eq_true hw⟩

/-! ## Operand bits that no command reads -/

theorem exec_keyb_congr {n : BitVec 4} (hn : n.toNat ≤ 8) {d d' : Word64}
    (hdata : dataBytes n.toNat d = dataBytes n.toNat d') (s : State) :
    exec (.keyb n d) s = exec (.keyb n d') s := by
  rw [exec_keyb hn, exec_keyb hn, hdata]

theorem exec_upd_congr {n : BitVec 4} (hn : n.toNat ≤ 8) {d d' : Word64}
    (hdata : dataBytes n.toNat d = dataBytes n.toNat d') (s : State) :
    exec (.upd n d) s = exec (.upd n d') s := by
  rw [exec_upd hn, exec_upd hn, update, update, hdata]

/-- Settles O24: an illegal word is answered from CMD alone; a decoded command without data carries no operand, and
KEYB and UPD read their data bytes alone, which are equal (`dataBytes_congr`). -/
theorem ignoredOperandBitsChangeNothing : Obligations.IgnoredOperandBitsChangeNothing := by
  intro w d d' s hbytes
  by_cases hlegal : legal w = true
  · obtain ⟨i, hi⟩ := (exists_decode_ok_iff ⟨w, d⟩).mpr hlegal
    obtain ⟨hrsv, hread⟩ := (decode_ok_iff _ i).mp hi
    have hdata : (opField w).toNat ∈ [0x01, 0x04] →
        dataBytes (lenField w).toNat d = dataBytes (lenField w).toNat d' := fun hop => dataBytes_congr (hbytes hop)
    cases i with
    | nop | keyc | rst | fin | stat | idq =>
      rw [accept_of_decode_ok hi]
      refine (accept_of_decode_ok ?_ s).symm
      exact (decode_ok_iff _ _).mpr ⟨hrsv, hread⟩
    | keyb =>
      obtain ⟨hop, rfl, hlen, rfl⟩ := hread
      have hi' : decode ⟨w, d'⟩ = .ok (.keyb (lenField w) d') := (decode_ok_iff _ _).mpr ⟨hrsv, hop, rfl, hlen, rfl⟩
      rw [accept_of_decode_ok hi, accept_of_decode_ok hi']
      exact exec_keyb_congr hlen (hdata (by simp [hop])) s
    | upd =>
      obtain ⟨hop, rfl, hlen, rfl⟩ := hread
      have hi' : decode ⟨w, d'⟩ = .ok (.upd (lenField w) d') := (decode_ok_iff _ _).mpr ⟨hrsv, hop, rfl, hlen, rfl⟩
      rw [accept_of_decode_ok hi, accept_of_decode_ok hi']
      exact exec_upd_congr hlen (hdata (by simp [hop])) s
  · rw [accept_of_illegal (c := ⟨w, d⟩) hlegal, accept_of_illegal (c := ⟨w, d'⟩) hlegal]

/-! ## The data bytes that ABSORB makes -/

/-- The data bytes of an LE word are the bytes it was made of. -/
theorem dataBytes_le {bytes : List Byte} (h : bytes.length ≤ 8) : dataBytes bytes.length (le bytes) = bytes := by
  refine List.ext_getElem (dataBytes_length _ _) fun j hj hj' => ?_
  rw [dataBytes_getElem, dbyte, le_byte bytes j (by omega), List.getElem?_eq_getElem hj', Option.getD_some]

/-- The first k full blocks of ABSORB as pieces (30_encoding.md R71). -/
def blockPieces (bytes : List Byte) (k : Nat) : Pieces :=
  (List.range k).map fun i => (8, le ((bytes.drop (8 * i)).take 8))

/-- The piece of ABSORB for the bytes after the last full block, if there are any. -/
def restPieces (bytes : List Byte) : Pieces :=
  if 0 < bytes.length % 8 then
    [(BitVec.ofNat 4 (bytes.length % 8), le (bytes.drop (8 * (bytes.length / 8))))]
  else []

/-- The UPD commands of ABSORB as pieces. -/
def absorbPieces (bytes : List Byte) : Pieces := blockPieces bytes (bytes.length / 8) ++ restPieces bytes

theorem absorbInstrs_eq_map (bytes : List Byte) :
    absorbInstrs bytes = (absorbPieces bytes).map fun p => .upd p.1 p.2 := by
  rw [absorbInstrs, absorbPieces, restPieces, blockPieces, List.map_append, List.map_map]
  split
  · rfl
  · rfl

theorem map_encode_absorbInstrs (bytes : List Byte) :
    (absorbInstrs bytes).map encode = updates (absorbPieces bytes) := by
  rw [absorbInstrs_eq_map, List.map_map]
  rfl

theorem toNat_ofNat_mod_eight (n : Nat) : (BitVec.ofNat 4 (n % 8)).toNat = n % 8 :=
  (BitVec.toNat_ofNat _ _).trans (Nat.mod_eq_of_lt (by omega))

theorem stream_append (ps qs : Pieces) : stream (ps ++ qs) = stream ps ++ stream qs :=
  List.flatMap_append

theorem stream_blockPieces {bytes : List Byte} {k : Nat} (hk : 8 * k ≤ bytes.length) :
    stream (blockPieces bytes k) = bytes.take (8 * k) := by
  induction k with
  | zero => rfl
  | succ k ih =>
    have hblock : ((bytes.drop (8 * k)).take 8).length = 8 := by
      rw [List.length_take, List.length_drop]
      omega
    have hlast : dataBytes 8 (le ((bytes.drop (8 * k)).take 8)) = (bytes.drop (8 * k)).take 8 := by
      have := dataBytes_le hblock.le
      rwa [hblock] at this
    rw [blockPieces, List.range_succ, List.map_append, stream_append, ← blockPieces, ih (by omega), Nat.mul_succ,
      List.take_add, ← hlast]
    simp [stream]

theorem stream_restPieces (bytes : List Byte) :
    stream (restPieces bytes) = bytes.drop (8 * (bytes.length / 8)) := by
  have hlen : (bytes.drop (8 * (bytes.length / 8))).length = bytes.length % 8 := by
    rw [List.length_drop]
    omega
  unfold restPieces
  split
  next h =>
    have hdata := dataBytes_le (bytes := bytes.drop (8 * (bytes.length / 8))) (by omega)
    rw [hlen] at hdata
    rw [stream, List.flatMap_singleton, toNat_ofNat_mod_eight, hdata]
  next h => exact (List.eq_nil_of_length_eq_zero (by omega)).symm

theorem stream_absorbPieces (bytes : List Byte) : stream (absorbPieces bytes) = bytes := by
  rw [absorbPieces, stream_append, stream_blockPieces (by omega), stream_restPieces, List.take_append_drop]

theorem absorbPieces_legal (bytes : List Byte) : Legal (absorbPieces bytes) := by
  intro p hp
  obtain hp | hp := List.mem_append.mp hp
  · obtain ⟨i, -, rfl⟩ := List.mem_map.mp hp
    exact Nat.le_refl 8
  · rw [restPieces, List.mem_ite_nil_right, List.mem_singleton] at hp
    rw [hp.2, toNat_ofNat_mod_eight]
    omega

/-- Settles O26: a full block gives back its 8 bytes, the last piece the rest (`stream_absorbPieces`). -/
theorem absorbDeliversItsBytes : Obligations.AbsorbDeliversItsBytes := fun bytes =>
  ⟨absorbPieces bytes, congrArg some (map_encode_absorbInstrs bytes), absorbPieces_legal bytes,
    stream_absorbPieces bytes⟩

/-! ## What the assembler refuses, and that it emits legal words -/

theorem dataFits_iff {n : Nat} {d : Word64} :
    dataFits n d = true ↔ n ≤ 8 ∧ ∀ b, 8 * n ≤ b → d.getLsbD b = false := by
  rw [dataFits, Bool.and_eq_true, decide_eq_true_iff, beq_iff_eq]
  refine and_congr_right fun _ => ⟨fun h b hb => ?_, fun h => BitVec.eq_of_getLsbD_eq fun p _ => ?_⟩
  · have hbit := congrArg (BitVec.getLsbD · (b - 8 * n)) h
    simpa [Nat.add_sub_cancel' hb] using hbit
  · simpa using h (8 * n + p) (by omega)

/-- A line with n and d is refused for n > 8 or a bit of d at or above 8n (30_encoding.md R70). -/
theorem not_dataFits_iff {n : Nat} {d : Word64} :
    ¬ dataFits n d = true ↔ 8 < n ∨ ∃ b, 8 * n ≤ b ∧ d.getLsbD b = true := by
  rw [dataFits_iff]
  simp [imp_iff_not_or]

theorem assemble_keyb_eq_none_iff {n : Nat} {d : Word64} : assemble (.keyb n d) = none ↔ ¬ dataFits n d = true := by
  simp [assemble]

theorem assemble_upd_eq_none_iff {n : Nat} {d : Word64} : assemble (.upd n d) = none ↔ ¬ dataFits n d = true := by
  simp [assemble]

theorem assemble_idq_eq_none_iff {i : Nat} : assemble (.idq i) = none ↔ 1 < i := by
  simp [assemble]

/-- These instructions all have an encoding. -/
def AllWellFormed (is : List Instr) : Prop := ∀ i ∈ is, wellFormed i = true

theorem keyInstrs_allWellFormed (k0 k1 : Word64) : AllWellFormed (keyInstrs k0 k1) := by
  simp [AllWellFormed, keyInstrs, wellFormed]

theorem zerosInstrs_allWellFormed (n : Nat) : AllWellFormed (zerosInstrs n) := by
  intro i hi
  obtain hi | hi := List.mem_append.mp hi
  · rw [List.eq_of_mem_replicate hi]
    rfl
  · rw [List.mem_ite_nil_right, List.mem_singleton] at hi
    rw [hi.2, wellFormed, toNat_ofNat_mod_eight]
    exact decide_eq_true (by omega)

theorem absorbInstrs_allWellFormed (bytes : List Byte) : AllWellFormed (absorbInstrs bytes) := by
  intro i hi
  rw [absorbInstrs_eq_map] at hi
  obtain ⟨p, hp, rfl⟩ := List.mem_map.mp hi
  exact decide_eq_true (absorbPieces_legal bytes p hp)

theorem hashInstrs_allWellFormed (bytes : List Byte) : AllWellFormed (hashInstrs bytes) := by
  intro i hi
  rw [hashInstrs, List.cons_append, List.mem_cons, List.mem_append, List.mem_singleton] at hi
  obtain rfl | hi | rfl := hi
  · rfl
  · exact absorbInstrs_allWellFormed bytes i hi
  · rfl

/-- Every line but a raw transaction assembles to the encodings of well-formed commands. -/
theorem exists_allWellFormed_of_assemble {l : AsmLine} {cs : List Command} (hraw : ∀ c d, l ≠ .raw c d)
    (h : assemble l = some cs) : ∃ is, cs = is.map encode ∧ AllWellFormed is := by
  cases l with
  | nop | keyc | rst | fin | stat =>
    cases h
    exact ⟨[_], rfl, List.forall_mem_singleton.mpr rfl⟩
  | keyb n d | upd n d =>
    obtain ⟨hfits, ⟨⟩⟩ := Option.ite_none_right_eq_some.mp h
    have hn : (BitVec.ofNat 4 n).toNat ≤ 8 := (Nat.mod_le _ _).trans (dataFits_iff.mp hfits).1
    exact ⟨[_], rfl, List.forall_mem_singleton.mpr (decide_eq_true hn)⟩
  | idq i =>
    obtain ⟨hi, ⟨⟩⟩ := Option.ite_none_right_eq_some.mp h
    have hn : (BitVec.ofNat 4 i).toNat ≤ 1 := (Nat.mod_le _ _).trans hi
    exact ⟨[_], rfl, List.forall_mem_singleton.mpr (decide_eq_true hn)⟩
  | raw c d => exact absurd rfl (hraw c d)
  | key k0 k1 =>
    cases h
    exact ⟨_, rfl, keyInstrs_allWellFormed k0 k1⟩
  | absorb bytes =>
    cases h
    exact ⟨_, rfl, absorbInstrs_allWellFormed bytes⟩
  | zeros n =>
    cases h
    exact ⟨_, rfl, zerosInstrs_allWellFormed n⟩
  | hash bytes =>
    cases h
    exact ⟨_, rfl, hashInstrs_allWellFormed bytes⟩

/-- Settles O25: the refusals are the assembler's own checks (`not_dataFits_iff`), and whatever else a line gives is
encoded from well-formed commands, which the decoder reads back (`decode_encode`). -/
theorem assembledLinesAreLegal : Obligations.AssembledLinesAreLegal := by
  refine ⟨fun n d => ⟨assemble_upd_eq_none_iff.trans not_dataFits_iff,
    assemble_keyb_eq_none_iff.trans not_dataFits_iff⟩, fun i => assemble_idq_eq_none_iff, ?_⟩
  intro l cs hraw h c hc
  obtain ⟨is, rfl, hw⟩ := exists_allWellFormed_of_assemble hraw h
  obtain ⟨i, hi, rfl⟩ := List.mem_map.mp hc
  exact ⟨i, decode_encode (hw i hi)⟩

/-! ## Runs over encoded commands -/

theorem after_cons_encode {i : Instr} {s t : State} (hw : wellFormed i = true) (h : exec i s = .next t)
    (cs : List Command) : after s (encode i :: cs) = after t cs :=
  after_cons_of_accept ((accept_of_decode_ok (decode_encode hw) s).trans h) cs

theorem after_append_of_after {s t : State} {cs : List Command} (h : after s cs = some t) (ds : List Command) :
    after s (cs ++ ds) = after t ds := by
  induction cs generalizing s with
  | nil => rw [List.nil_append, Option.some.inj h]
  | cons c cs ih =>
    obtain ⟨u, hu, -⟩ := accept_responds c s
    rw [after_cons_of_accept hu] at h
    rw [List.cons_append, after_cons_of_accept hu, ih h]

/-! ## The key load of KEY -/

theorem stageBytes_append (s : State) (a b : List Byte) :
    stageBytes s (a ++ b) = stageBytes (stageBytes s a) b :=
  List.foldl_append

/-- Responding and staging do not read each other's elements. -/
theorem stageBytes_respond (code : RespCode) (rdata : Word64) (s : State) (bytes : List Byte) :
    stageBytes (respond code rdata s) bytes = respond code rdata (stageBytes s bytes) :=
  List.foldl_hom (respond code rdata) fun _ _ => rfl

/-- With nothing staged before, 16 bytes fill the staging register (40_key.md R81). -/
theorem stageBytes_ks_toList {s : State} {bytes : List Byte} (hcnt : s.ksCnt = 0) (hlen : bytes.length = 16) :
    (stageBytes s bytes).ks.toList = bytes := by
  refine List.ext_getElem (by simp [hlen]) fun k hk hk' => ?_
  rw [Vector.getElem_toList, stageBytes_ks s bytes k (by omega)]
  simp [hcnt, hk']

/-- The state after two commands that stage `bytes` between them. -/
def stagedTwice (s : State) (bytes : List Byte) : State := respond .ok 0 (respond .ok 0 (stageBytes s bytes))

theorem stagedTwice_append (s : State) (a b : List Byte) :
    stagedTwice s (a ++ b) = respond .ok 0 (stageBytes (respond .ok 0 (stageBytes s a)) b) := by
  rw [stagedTwice, stageBytes_append, stageBytes_respond]

/-- Staging changes KS and KS_CNT alone (40_key.md R81), and each of the two commands answers OK. -/
theorem stagedTwice_eq (s : State) (bytes : List Byte) :
    stagedTwice s bytes = { s with
      ks := (stageBytes s bytes).ks, ksCnt := (stageBytes s bytes).ksCnt
      responses := s.responses ++ [⟨.ok, 0⟩, ⟨.ok, 0⟩] } := by
  rw [stagedTwice, respond_respond, stageBytes_frame]

/-- KEYC after 16 bytes were staged on none commits them (40_key.md R82). -/
theorem exec_keyc_stagedTwice {s : State} {bytes : List Byte} (hcnt : s.ksCnt = 0) (hlen : bytes.length = 16) :
    exec .keyc (stagedTwice s bytes) = .next { stagedTwice s bytes with
      ksCnt := 0, k0 := le (bytes.take 8), k1 := le (bytes.drop 8)
      lanes := initLanes (le (bytes.take 8)) (le (bytes.drop 8)), bufCnt := 0, totalLen := 0, fsm := .fresh
      responses := s.responses ++ [⟨.ok, 0⟩, ⟨.ok, 0⟩, ⟨.ok, 0⟩] } := by
  have h16 : (stageBytes s bytes).ksCnt.val = 16 := by simp [stageBytes_ksCnt, hcnt, hlen]
  have hks : (stageBytes s bytes).ks.toList = bytes := stageBytes_ks_toList hcnt hlen
  refine congrArg _ ((if_pos h16).trans ?_)
  simp [respond, laneInit, commitKey, stagedTwice, hks]

/-- KEYC after 16 bytes were staged on some clears the count alone (40_key.md R82): it had saturated at 17. -/
theorem exec_keyc_stagedTwice_of_ksCnt_ne_zero {s : State} {bytes : List Byte} (hcnt : s.ksCnt ≠ 0)
    (hlen : bytes.length = 16) :
    ∃ ks, exec .keyc (stagedTwice s bytes) = .next { s with
      ks := ks, ksCnt := 0
      responses := s.responses ++ [⟨.ok, 0⟩, ⟨.ok, 0⟩, ⟨.invalidKeyLength, 17⟩] } := by
  have h17 : (stageBytes s bytes).ksCnt.val = 17 := by
    have hpos : s.ksCnt.val ≠ 0 := fun h => hcnt (Fin.ext h)
    rw [stageBytes_ksCnt]
    omega
  have hne : (stagedTwice s bytes).ksCnt.val ≠ Config.keyBytes := h17.trans_ne (by decide)
  refine ⟨(stageBytes s bytes).ks, congrArg _ ((if_neg hne).trans ?_)⟩
  rw [stagedTwice_eq, h17]
  simp [raise, respond]

/-- The 16 bytes that KEY stages (30_encoding.md R71). -/
def keyLineBytes (k0 k1 : Word64) : List Byte := dataBytes 8 k0 ++ dataBytes 8 k1

theorem keyLineBytes_length (k0 k1 : Word64) : (keyLineBytes k0 k1).length = 16 := by
  simp [keyLineBytes]

theorem le_take_keyLineBytes (k0 k1 : Word64) : le ((keyLineBytes k0 k1).take 8) = k0 := by
  rw [keyLineBytes, List.take_left' (dataBytes_length 8 k0), le_dataBytes]

theorem le_drop_keyLineBytes (k0 k1 : Word64) : le ((keyLineBytes k0 k1).drop 8) = k1 := by
  rw [keyLineBytes, List.drop_left' (dataBytes_length 8 k0), le_dataBytes]

theorem after_keyInstrs {s t : State} {k0 k1 : Word64}
    (h : exec .keyc (stagedTwice s (keyLineBytes k0 k1)) = .next t) :
    after s ((keyInstrs k0 k1).map encode) = some t := by
  have hkeyb : ∀ (d : Word64) (u : State),
      exec (.keyb 8 d) u = .next (respond .ok 0 (stageBytes u (dataBytes 8 d))) := exec_keyb (Nat.le_refl 8)
  rw [keyLineBytes, stagedTwice_append] at h
  rw [keyInstrs, List.map_cons, List.map_cons, List.map_singleton, after_cons_encode rfl (hkeyb k0 s),
    after_cons_encode rfl (hkeyb k1 _), after_cons_encode rfl h, after]

/-- Settles O32: KEY's two KEYB stage 16 bytes. On none before, these are the two halves that KEYC commits; on some,
the count saturates at 17 and KEYC is refused. -/
theorem keyLoadCommitsBothHalves : Obligations.KeyLoadCommitsBothHalves := by
  intro s k0 k1
  have hlen := keyLineBytes_length k0 k1
  have hk0 := le_take_keyLineBytes k0 k1
  have hk1 := le_drop_keyLineBytes k0 k1
  by_cases hcnt : s.ksCnt = 0
  · exact ⟨_, _, rfl, after_keyInstrs (exec_keyc_stagedTwice hcnt hlen), fun _ =>
      ⟨hk0, hk1, rfl, congrArg₂ initLanes hk0 hk1, rfl, rfl, rfl, rfl⟩, fun hne => absurd hcnt hne⟩
  · obtain ⟨ks, hkeyc⟩ := exec_keyc_stagedTwice_of_ksCnt_ne_zero hcnt hlen
    exact ⟨_, _, rfl, after_keyInstrs hkeyc, fun hzero => absurd hzero hcnt, fun _ => rfl⟩

/-! ## Runs of UPD commands, and the hash of what they absorb -/

/-- The state after the UPD commands of `ps`, from a state that takes them (42_hasher.md R101). -/
def afterUpdates (s : State) (ps : Pieces) : State :=
  { absorbBytes s (stream ps) with
    totalLen := s.totalLen + BitVec.ofNat 8 (stream ps).length
    fsm := if ps = [] then s.fsm else .absorbing
    responses := s.responses ++ List.replicate ps.length ⟨.ok, 0⟩ }

/-- Absorbing bytes reads none of TOTAL_LEN, FSM and the responses. -/
theorem absorbBytes_with (s : State) (totalLen : Byte) (fsm : Fsm) (responses : List Response) (bytes : List Byte) :
    absorbBytes { s with totalLen := totalLen, fsm := fsm, responses := responses } bytes =
      { absorbBytes s bytes with totalLen := totalLen, fsm := fsm, responses := responses } := by
  induction bytes generalizing s with
  | nil => rfl
  | cons b bs ih => exact ih (absorbByte s b)

theorem stream_cons (n : BitVec 4) (opd : Word64) (ps : Pieces) :
    stream ((n, opd) :: ps) = dataBytes n.toNat opd ++ stream ps := rfl

theorem afterUpdates_cons (s : State) (n : BitVec 4) (opd : Word64) (ps : Pieces) :
    afterUpdates s ((n, opd) :: ps) = afterUpdates (respond .ok 0 (update n opd s)) ps := by
  have hupd : respond .ok 0 (update n opd s) = { absorbBytes s (dataBytes n.toNat opd) with
      totalLen := add8 s.totalLen (n.setWidth 8), fsm := .absorbing
      responses := s.responses ++ [⟨.ok, 0⟩] } := by
    simp [respond, update]
  have htotal : s.totalLen + BitVec.ofNat 8 (stream ((n, opd) :: ps)).length =
      add8 s.totalLen (n.setWidth 8) + BitVec.ofNat 8 (stream ps).length := by
    rw [stream_cons, List.length_append, dataBytes_length, BitVec.ofNat_add, ← BitVec.add_assoc,
      BitVec.ofNat_toNat, add8]
  rw [afterUpdates, htotal, stream_cons, absorbBytes_append, afterUpdates, hupd,
    absorbBytes_with (absorbBytes s _) (add8 _ _) .absorbing (_ ++ _)]
  simp [List.replicate_succ]

@[simp] theorem afterUpdates_k0 (s : State) (ps : Pieces) : (afterUpdates s ps).k0 = s.k0 := absorbBytes_k0 s _

@[simp] theorem afterUpdates_k1 (s : State) (ps : Pieces) : (afterUpdates s ps).k1 = s.k1 := absorbBytes_k1 s _

theorem afterUpdates_open {s : State} (h : s.fsm = .fresh ∨ s.fsm = .absorbing) (ps : Pieces) :
    (afterUpdates s ps).fsm = .fresh ∨ (afterUpdates s ps).fsm = .absorbing := by
  cases ps with
  | nil => exact h
  | cons p ps => exact .inr rfl

/-- Legal UPD commands from a state with an open message are all absorbed. -/
theorem after_updates {s : State} {ps : Pieces} (hopen : s.fsm = .fresh ∨ s.fsm = .absorbing) (hlegal : Legal ps) :
    after s (updates ps) = some (afterUpdates s ps) := by
  induction ps generalizing s with
  | nil => simp [updates, after, afterUpdates, stream, absorbBytes]
  | cons p ps ih =>
    obtain ⟨n, opd⟩ := p
    have hn : n.toNat ≤ 8 := hlegal _ List.mem_cons_self
    have hupd : exec (.upd n opd) s = .next (respond .ok 0 (update n opd s)) := by
      rw [exec_upd hn]
      obtain h | h := hopen
      · simp [h]
      · simp [h]
    rw [afterUpdates_cons, ← ih (.inr rfl) fun q hq => hlegal q (List.mem_cons_of_mem _ hq)]
    exact after_cons_encode (i := .upd n opd) (decide_eq_true hn) hupd _

/-- The UPD commands of `ps` append their data stream to the message held. -/
theorem afterUpdates_holds {s : State} {m : List Byte} (h : Holds s m) (ps : Pieces) :
    Holds (afterUpdates s ps) (m ++ stream ps) := by
  obtain ⟨hlanes, htail⟩ := absorbBytes_holds s _ m (stream ps) h.lanes h.tail
  refine ⟨?_, htail, ?_⟩
  · simpa [afterUpdates] using hlanes
  · simp [afterUpdates, h.totalLen, BitVec.ofNat_add]

/-- An engine that holds m has the final block of m. -/
theorem finalBlock_of_holds {s : State} {m : List Byte} (h : Holds s m) : finalBlock s = finalBlockOf m := by
  rw [finalBlock, finalWord, finalBlockOf, h.tail, h.totalLen]
  have hlen : (BitVec.ofNat 8 m.length).setWidth 64 = BitVec.ofNat 64 (m.length % 256) := by
    apply BitVec.eq_of_toNat_eq
    simp
  rw [hlen]

/-- FIN on an engine that holds m answers the hash of m under its key (42_hasher.md R104). -/
theorem exec_fin_of_holds {s : State} {m : List Byte} (hopen : s.fsm = .fresh ∨ s.fsm = .absorbing)
    (h : Holds s m) :
    exec .fin s = .next (respond .ok (sipHashHalves s.k0 s.k1 m) (finalize s)) := by
  rw [exec_fin, finalBlock_of_holds h, h.lanes, ← sipHashHalves]
  obtain hfsm | hfsm := hopen
  · simp [hfsm]
  · simp [hfsm]

/-- RST in a keyed state re-initialises the lanes (42_hasher.md R100). -/
theorem exec_rst_of_keyed {s : State} (h : s.fsm ≠ .unkeyed) :
    exec .rst s = .next (respond .ok 0 { laneInit s with fsm := .fresh }) :=
  (exec_rst s).trans (congrArg _ (if_neg h))

/-- From an engine that holds m, UPD commands and then FIN return the hash of m and their data stream. -/
theorem after_updates_fin {s : State} {m : List Byte} {ps : Pieces} (hopen : s.fsm = .fresh ∨ s.fsm = .absorbing)
    (h : Holds s m) (hlegal : Legal ps) :
    ∃ t, after s (updates ps ++ [encode .fin]) = some t ∧
      t.responses.getLast? = some ⟨.ok, sipHashHalves s.k0 s.k1 (m ++ stream ps)⟩ := by
  have hfin := exec_fin_of_holds (afterUpdates_open hopen ps) (afterUpdates_holds h ps)
  refine ⟨_, (after_append_of_after (after_updates hopen hlegal) _).trans (after_cons_encode rfl hfin []), ?_⟩
  simp

/-- Settles O42: RST leaves an engine that holds the empty message under its key, and the UPD commands of HASH
deliver its bytes (`stream_absorbPieces`), so FIN returns their hash (`after_updates_fin`). -/
theorem hashLineReturnsTheHash : Obligations.HashLineReturnsTheHash := by
  intro s bytes hkeyed
  have hholds : Holds (respond .ok 0 { laneInit s with fsm := .fresh }) [] := ⟨rfl, rfl, rfl⟩
  obtain ⟨t, ht, hlast⟩ := after_updates_fin (.inl rfl) hholds (absorbPieces_legal bytes)
  rw [stream_absorbPieces, List.nil_append] at hlast
  refine ⟨_, t, rfl, ?_, hlast⟩
  rw [hashInstrs, List.cons_append, List.map_cons, List.map_append, map_encode_absorbInstrs,
    after_cons_encode rfl (exec_rst_of_keyed hkeyed)]
  exact ht

end Sys2Proof.Proofs

/-! PROOFS. Key loading and lane initialisation (40_key.md). -/

namespace Sys2Proof.Proofs

open Sys2Proof.Machine Sys2Proof.Safety Sys2Proof.Laws

/-- Settles O27: LaneInit's definition, with the lanes that `initLanes` makes of the key halves written out. -/
theorem laneInitWritesLanesAndCounters : Obligations.LaneInitWritesLanesAndCounters := fun _ => rfl

/-! ## The words of one opcode -/

/-- The words of an opcode run `make` where its commands are read from LEN at most `max`, and `max` bounds LEN in
every legal word of the opcode. -/
theorem encodedAs_of_readFrom {op : BitVec 8} {max : Nat} {make : BitVec 4 → Word64 → Instr}
    (hread : ∀ c : Command, opField c.cmd = op → (lenField c.cmd).toNat ≤ max →
      ReadFrom c (make (lenField c.cmd) c.opd))
    (hmax : ∀ w : CmdWord, opField w = op → legal w = true → (lenField w).toNat ≤ max) :
    EncodedAs op max make := by
  intro c s hop
  split
  next h => exact accept_of_decode_ok ((decode_ok_iff c _).mpr ⟨h.1, hread c hop h.2⟩) s
  next h =>
    exact accept_of_illegal (fun hlegal => h ⟨((legal_iff c.cmd).mp hlegal).1, hmax c.cmd hop hlegal⟩) s

theorem encodedAs_keyb : EncodedAs 0x01 8 .keyb := by
  refine encodedAs_of_readFrom (fun c hop hlen => ⟨congrArg _ hop, rfl, hlen, rfl⟩) fun w hop hlegal => ?_
  simpa [hop] using ((legal_iff w).mp hlegal).2

theorem encodedAs_keyc : EncodedAs 0x02 0 (fun _ _ => .keyc) := by
  refine encodedAs_of_readFrom
    (fun c hop hlen => ⟨congrArg _ hop, BitVec.eq_of_toNat_eq (Nat.le_zero.mp hlen)⟩) fun w hop hlegal => ?_
  have hzero : lenField w = 0 := by simpa [hop] using ((legal_iff w).mp hlegal).2
  simp [hzero]

/-! ## Staging -/

/-- KEYB's loop by positions (40_key.md R81): the n bytes from KS_CNT on are the operand's, the others stay. -/
theorem stageBytes_dataBytes_ks (s : State) (n : Nat) (opd : Word64) (k : Nat) (hk : k < 16) :
    (stageBytes s (dataBytes n opd)).ks[k] =
      if s.ksCnt.val ≤ k ∧ k < s.ksCnt.val + n then dbyte opd (k - s.ksCnt.val) else s.ks[k] := by
  rw [stageBytes_ks s _ k hk, ite_and]
  refine ite_congr rfl (fun hle => ?_) fun _ => rfl
  split
  next hlt =>
    have hj : k - s.ksCnt.val < (dataBytes n opd).length := by rw [dataBytes_length]; omega
    rw [List.getElem?_eq_getElem hj, Option.getD_some, dataBytes_getElem]
  next hge =>
    have hj : (dataBytes n opd).length ≤ k - s.ksCnt.val := by rw [dataBytes_length]; omega
    rw [List.getElem?_eq_none hj, Option.getD_none]

/-- Settles O28: `stageBytes_frame`, `stageBytes_ksCnt` and `stageBytes_dataBytes_ks` are KEYB's loop, and
`encodedAs_keyb` its words. -/
theorem keybStagesItsBytes : Obligations.KeybStagesItsBytes := by
  refine ⟨fun n opd s hn => ⟨_, exec_keyb hn opd s, ?_, ?_, ?_⟩, encodedAs_keyb⟩
  · conv_lhs => rw [stageBytes_frame]
    rfl
  · rw [respond_ksCnt, stageBytes_ksCnt, dataBytes_length]
  · exact stageBytes_dataBytes_ks s n.toNat opd

/-! ## Committing -/

/-- KEYC with 16 staged bytes (40_key.md R82). -/
theorem exec_keyc_of_sixteen {s : State} (h : s.ksCnt.val = 16) :
    exec .keyc s = .next (respond .ok 0 { laneInit (commitKey { s with ksCnt := 0 }) with fsm := .fresh }) :=
  congrArg _ (if_pos h)

/-- KEYC with any other count (40_key.md R82). -/
theorem exec_keyc_of_ne_sixteen {s : State} (h : s.ksCnt.val ≠ 16) :
    exec .keyc s = .next (raise .invalidKeyLength (BitVec.ofNat 64 s.ksCnt.val) { s with ksCnt := 0 }) :=
  congrArg _ (if_neg h)

theorem le_take_byte (ks : Vector Byte 16) (j : Nat) (hj : j < 8) :
    (le (ks.toList.take 8)).extractLsb' (8 * j) 8 = ks[j] := by
  rw [le_byte _ j hj, List.getElem?_take_of_lt hj, List.getElem?_eq_getElem (by simp; omega), Option.getD_some,
    Vector.getElem_toList]

theorem le_drop_byte (ks : Vector Byte 16) (j : Nat) (hj : j < 8) :
    (le (ks.toList.drop 8)).extractLsb' (8 * j) 8 = ks[8 + j] := by
  rw [le_byte _ j hj, List.getElem?_drop, List.getElem?_eq_getElem (by simp; omega), Option.getD_some,
    Vector.getElem_toList]

/-- Settles O29: the two branches of KEYC, where `le_take_byte` and `le_drop_byte` name the bytes of the committed
halves, and `encodedAs_keyc` its words. -/
theorem keycCommitsSixteenBytes : Obligations.KeycCommitsSixteenBytes :=
  ⟨fun s h => ⟨_, _, fun j hj => ⟨le_take_byte s.ks j hj, le_drop_byte s.ks j hj⟩, exec_keyc_of_sixteen h⟩,
    fun _ h => exec_keyc_of_ne_sixteen h, encodedAs_keyc⟩

/-! ## What changes the key -/

/-- Both key halves of `t` are those of `s`. -/
def SameKey (s t : State) : Prop := t.k0 = s.k0 ∧ t.k1 = s.k1

/-- Both key halves of `t` are the little-endian halves of KS in `s`. -/
def TakesStagedKey (s t : State) : Prop := t.k0 = le (s.ks.toList.take 8) ∧ t.k1 = le (s.ks.toList.drop 8)

/-- A command keeps the key, or is a KEYC with 16 staged bytes and commits them (40_key.md R83). -/
theorem exec_key {i : Instr} (hw : wellFormed i = true) (s : State) :
    ∃ t, exec i s = .next t ∧ (SameKey s t ∨ (i = .keyc ∧ s.ksCnt.val = 16 ∧ TakesStagedKey s t)) := by
  cases i with
  | nop | stat => exact ⟨_, rfl, .inl ⟨rfl, rfl⟩⟩
  | keyb n opd =>
    exact ⟨_, exec_keyb (of_decide_eq_true hw) opd s, .inl ⟨stageBytes_k0 s _, stageBytes_k1 s _⟩⟩
  | keyc =>
    by_cases h : s.ksCnt.val = 16
    · exact ⟨_, exec_keyc_of_sixteen h, .inr ⟨rfl, h, rfl, rfl⟩⟩
    · exact ⟨_, exec_keyc_of_ne_sixteen h, .inl ⟨rfl, rfl⟩⟩
  | rst =>
    refine ⟨_, exec_rst s, .inl ?_⟩
    split <;> exact ⟨rfl, rfl⟩
  | upd n opd =>
    refine ⟨_, exec_upd (of_decide_eq_true hw) opd s, .inl ?_⟩
    split_ifs
    · exact ⟨rfl, rfl⟩
    · exact ⟨rfl, rfl⟩
    · exact ⟨update_k0 n opd s, update_k1 n opd s⟩
  | fin =>
    refine ⟨_, exec_fin s, .inl ?_⟩
    split_ifs <;> exact ⟨rfl, rfl⟩
  | idq index => exact ⟨_, exec_idq (of_decide_eq_true hw) s, .inl ⟨rfl, rfl⟩⟩

/-- A transaction keeps the key, or is a KEYC with 16 staged bytes and commits them. -/
theorem accept_key (c : Command) (s : State) :
    ∃ t, accept c s = .next t ∧
      (SameKey s t ∨ (decode c = .ok .keyc ∧ s.ksCnt.val = 16 ∧ TakesStagedKey s t)) := by
  cases hd : decode c with
  | error e => exact ⟨_, accept_of_decode_error hd s, .inl ⟨rfl, rfl⟩⟩
  | ok i =>
    rw [accept_of_decode_ok hd, Except.ok.injEq]
    exact exec_key (decode_ok_wellFormed hd) s

/-- Settles O30: an idle step changes nothing, a transaction changes the key by committing it alone (`accept_key`),
and a hardware reset clears it. -/
theorem keyChangesOnlyAtCommitOrReset : Obligations.KeyChangesOnlyAtCommitOrReset := by
  intro s t hstep hchange
  obtain ⟨-, hidle⟩ | ⟨c, rest, hinputs, haccept⟩ | ⟨cut, rest, hinputs, hreset⟩ := step_cases s
  · obtain rfl : s = t := Host.Outcome.next.inj (hidle.symm.trans hstep)
    simp at hchange
  · obtain ⟨u, hu, hkey⟩ := accept_key c { s with inputs := rest }
    obtain rfl : u = t := Host.Outcome.next.inj (hu.symm.trans (haccept.symm.trans hstep))
    obtain ⟨hk0, hk1⟩ | ⟨hdecode, hcnt, hk0, hk1⟩ := hkey
    · exact absurd hchange (by simp [hk0, hk1])
    · exact .inl ⟨c, rest, hinputs, hdecode, hcnt, hk0, hk1⟩
  · obtain rfl : _ = t := Host.Outcome.next.inj (hreset.symm.trans hstep)
    exact .inr ⟨cut, rest, hinputs, rfl, rfl⟩

end Sys2Proof.Proofs

/-! PROOFS. SipRound, compression and the final block (41_permutation.md). -/

namespace Sys2Proof.Proofs

open Sys2Proof.Machine Sys2Proof.Laws

/-! ## The bytes of the final block -/

/-- The final block below its top byte is the tail's LE. -/
theorem finalWord_byte (tail : List Byte) (totalLen : Byte) {j : Nat} (hj : j < 7) :
    (finalWord tail totalLen).extractLsb' (8 * j) 8 = (tail[j]?).getD 0 := by
  have hlow : (totalLen.setWidth 64 <<< 56).extractLsb' (8 * j) 8 = 0 := by
    ext p hp
    have habove : 8 * j + p < 56 := by omega
    simp [habove]
  rw [finalWord, BitVec.extractLsb'_or, hlow, le_byte tail j (by omega)]
  exact BitVec.zero_or

/-- A tail of at most 7 bytes leaves the top byte to the total length. -/
theorem finalWord_topByte {tail : List Byte} (htail : tail.length ≤ 7) (totalLen : Byte) :
    (finalWord tail totalLen).extractLsb' 56 8 = totalLen := by
  have htop : (totalLen.setWidth 64 <<< 56).extractLsb' 56 8 = totalLen := by
    ext p hp
    have hbit : 56 + p < 64 := by omega
    simp [hbit, BitVec.getLsbD_eq_getElem hp]
  have hzero : (le tail).extractLsb' 56 8 = 0 := by
    rw [le_byte tail 7 (by decide), List.getElem?_eq_none htail, Option.getD_none]
  rw [finalWord, BitVec.extractLsb'_or, htop, hzero]
  exact BitVec.or_zero

theorem tailBytes_getElem?_of_lt {s : State} {i : Nat} (hi : i < 8) (hlt : i < s.bufCnt.val) :
    (tailBytes s)[i]? = some s.buf[i] := by
  rw [tailBytes, List.getElem?_take_of_lt hlt, List.getElem?_eq_getElem (by simpa using hi), Vector.getElem_toList]

/-- Settles O36: below bit 56 the block is the tail, whose length is BUF_CNT (`finalWord_byte`), and BUF_CNT is at
most 7, so the top byte is TOTAL_LEN alone (`finalWord_topByte`). -/
theorem finalBlockHoldsTailAndLength : Obligations.FinalBlockHoldsTailAndLength := by
  intro s
  have hcnt : s.bufCnt.val ≤ 7 := Nat.le_of_lt_succ s.bufCnt.isLt
  have hlen : (tailBytes s).length = s.bufCnt.val := tailBytes_length s
  refine ⟨fun i hi hlt => ?_, fun i habove hi => ?_, ?_⟩
  · rw [finalBlock, finalWord_byte _ _ (by omega), tailBytes_getElem?_of_lt hi hlt, Option.getD_some]
  · rw [finalBlock, finalWord_byte _ _ hi, List.getElem?_eq_none (hlen.trans_le habove), Option.getD_none]
  · exact finalWord_topByte (hlen.trans_le hcnt) s.totalLen

/-! ## SipRound and compression -/

/-- The model's rotation is the library's, for the amounts of 00_scope.md R9. -/
theorem rotl64_eq_rotateLeft (x : Word64) {n : Nat} (hn : n < 64) : rotl64 x n = x.rotateLeft n := by
  rw [BitVec.rotateLeft, Nat.mod_eq_of_lt hn]
  rfl

/-- Settles O33: SipRound's steps are the statement's once each rotation is the library's. -/
theorem sipRoundIsTheEightSteps : Obligations.SipRoundIsTheEightSteps := by
  refine ⟨fun v0 v1 v2 v3 => ?_, by decide⟩
  simp only [sipRound, add64, xor64, rotl64_eq_rotateLeft _ (show 13 < 64 by decide),
    rotl64_eq_rotateLeft _ (show 16 < 64 by decide), rotl64_eq_rotateLeft _ (show 17 < 64 by decide),
    rotl64_eq_rotateLeft _ (show 21 < 64 by decide), rotl64_eq_rotateLeft _ (show 32 < 64 by decide)]

/-- Settles O35: with C = 2 the rounds of `compress` are two applications of SipRound, which give the `w` claimed. -/
theorem compressIsTwoRoundsBetweenXors : Obligations.CompressIsTwoRoundsBetweenXors :=
  fun m v => ⟨sipRound (sipRound ⟨v.v0, v.v1, v.v2, v.v3 ^^^ m⟩), rfl, rfl⟩

end Sys2Proof.Proofs

/-! PROOFS. The message commands (42_hasher.md). -/

namespace Sys2Proof.Proofs

open Sys2Proof.Machine Sys2Proof.Safety Sys2Proof.Laws

/-! ## The words of the message commands -/

/-- The words of an opcode whose commands carry no data run its command where LEN is 0. -/
theorem encodedAs_plain {op : BitVec 8} {i : Instr} (hplain : op.toNat ∈ [0x00, 0x02, 0x03, 0x05, 0x06])
    (hread : ∀ c : Command, opField c.cmd = op → lenField c.cmd = 0 → ReadFrom c i) :
    EncodedAs op 0 (fun _ _ => i) := by
  refine encodedAs_of_readFrom
    (fun c hop hlen => hread c hop (BitVec.eq_of_toNat_eq (Nat.le_zero.mp hlen))) fun w hop hlegal => ?_
  obtain ⟨-, ⟨-, hlen⟩ | ⟨hdata, -⟩ | ⟨hindex, -⟩⟩ := (legal_iff w).mp hlegal
  · simp [hlen]
  · simp only [hop, List.mem_cons, List.not_mem_nil, or_false] at hplain hdata
    omega
  · simp [← hop, hindex] at hplain

theorem encodedAs_rst : EncodedAs 0x03 0 (fun _ _ => .rst) :=
  encodedAs_plain (by decide) fun _ hop hlen => ⟨congrArg _ hop, hlen⟩

theorem encodedAs_fin : EncodedAs 0x05 0 (fun _ _ => .fin) :=
  encodedAs_plain (by decide) fun _ hop hlen => ⟨congrArg _ hop, hlen⟩

theorem encodedAs_upd : EncodedAs 0x04 8 .upd := by
  refine encodedAs_of_readFrom (fun c hop hlen => ⟨congrArg _ hop, rfl, hlen, rfl⟩) fun w hop hlegal => ?_
  simpa [hop] using ((legal_iff w).mp hlegal).2

/-! ## RST -/

/-- Settles O37: the two branches of RST's key check, and `encodedAs_rst` its words. -/
theorem rstReinitialisesUnderTheKey : Obligations.RstReinitialisesUnderTheKey :=
  ⟨fun _ hkeyed => exec_rst_of_keyed hkeyed,
    fun s hunkeyed => (exec_rst s).trans (congrArg _ (if_pos hunkeyed)), encodedAs_rst⟩

/-! ## UPD -/

theorem keyed_and_not_finalized_of_open {s : State} (hopen : s.fsm = .fresh ∨ s.fsm = .absorbing) :
    s.fsm ≠ .unkeyed ∧ s.fsm ≠ .finalized := by
  obtain hfsm | hfsm := hopen
  · simp [hfsm]
  · simp [hfsm]

/-- UPD with LEN in range, while the message is open (42_hasher.md R101). -/
theorem exec_upd_of_open {n : BitVec 4} (hn : n.toNat ≤ 8) (opd : Word64) {s : State}
    (hopen : s.fsm = .fresh ∨ s.fsm = .absorbing) :
    exec (.upd n opd) s = .next (respond .ok 0 (update n opd s)) := by
  obtain ⟨hkeyed, hnotFinal⟩ := keyed_and_not_finalized_of_open hopen
  rw [exec_upd hn, if_neg hkeyed, if_neg hnotFinal]

/-- A UPD that passes its checks writes the lanes, BUF, BUF_CNT, TOTAL_LEN and FSM alone. -/
theorem update_frame (n : BitVec 4) (opd : Word64) (s : State) :
    update n opd s = { s with
      lanes := (update n opd s).lanes, buf := (update n opd s).buf, bufCnt := (update n opd s).bufCnt,
      totalLen := (update n opd s).totalLen, fsm := .absorbing } := by
  conv_lhs => rw [update, absorbBytes_frame]
  rfl

theorem update_totalLen_toNat (n : BitVec 4) (opd : Word64) (s : State) :
    (update n opd s).totalLen.toNat = (s.totalLen.toNat + n.toNat) % 256 := by
  simp [add8]

/-- UPD on the lanes and the tail: with fewer than 8 bytes in all they are the new tail, else the first 8 are
compressed and the others are the new tail (42_hasher.md R101). -/
theorem update_absorbs {n : BitVec 4} (hn : n.toNat ≤ 8) (opd : Word64) (s : State) :
    if s.bufCnt.val + n.toNat < 8 then
      (update n opd s).bufCnt.val = s.bufCnt.val + n.toNat ∧ (update n opd s).lanes = s.lanes ∧
        tailBytes (update n opd s) = tailBytes s ++ dataBytes n.toNat opd
    else
      (update n opd s).bufCnt.val = s.bufCnt.val + n.toNat - 8 ∧
        (update n opd s).lanes = compress (le ((tailBytes s ++ dataBytes n.toNat opd).take 8)) s.lanes ∧
        tailBytes (update n opd s) = (tailBytes s ++ dataBytes n.toNat opd).drop 8 := by
  have hlt : s.bufCnt.val < 8 := s.bufCnt.isLt
  have hcnt : (update n opd s).bufCnt.val = (s.bufCnt.val + n.toNat) % 8 := by
    rw [update_bufCnt, absorbBytes_bufCnt, dataBytes_length]
  have hall : (tailBytes s ++ dataBytes n.toNat opd).length = s.bufCnt.val + n.toNat := by
    rw [List.length_append, tailBytes_length, dataBytes_length]
  obtain ⟨hlanes, htail⟩ := absorbBytes_contract s (dataBytes n.toNat opd) ((dataBytes_length _ _).trans_le hn)
  rw [hall] at hlanes htail
  split
  next hshort =>
    rw [if_pos hshort] at hlanes htail
    exact ⟨by omega, hlanes, htail⟩
  next hfull =>
    rw [if_neg hfull] at hlanes htail
    exact ⟨by omega, hlanes, htail⟩

/-- Settles O38: an open message takes the writes of `update`, whose frame is `update_frame` and whose effect is
`update_absorbs`; the other two states are refused, and `encodedAs_upd` is UPD's words. -/
theorem updAbsorbsItsBytes : Obligations.UpdAbsorbsItsBytes := by
  refine ⟨fun n opd s hn hopen => ⟨_, exec_upd_of_open hn opd hopen, ?_, update_totalLen_toNat n opd s,
      update_absorbs hn opd s⟩, fun n opd s hn hunkeyed => ?_, fun n opd s hn hfinalized => ?_, encodedAs_upd⟩
  · conv_lhs => rw [update_frame]
    rfl
  · rw [exec_upd hn, if_pos hunkeyed]
    rfl
  · rw [exec_upd hn, if_neg (by simp [hfinalized]), if_pos hfinalized]
    rfl

/-! ## FIN -/

/-- FIN while the message is open (42_hasher.md R102). -/
theorem exec_fin_of_open {s : State} (hopen : s.fsm = .fresh ∨ s.fsm = .absorbing) :
    exec .fin s = .next (respond .ok (digest (finalLanes (finalBlock s) s.lanes)) (finalize s)) := by
  obtain ⟨hkeyed, hnotFinal⟩ := keyed_and_not_finalized_of_open hopen
  rw [exec_fin, if_neg hkeyed, if_neg hnotFinal]

/-- Settles O39: an open message takes the writes of `finalize`, whose lanes are the compressed final block's after
four rounds; the other two states are refused, and `encodedAs_fin` is FIN's words. -/
theorem finReturnsTheDigest : Obligations.FinReturnsTheDigest := by
  refine ⟨fun s hopen => ⟨compress (finalBlock s) s.lanes, (finalize s).lanes, rfl, rfl, exec_fin_of_open hopen⟩,
    fun s hunkeyed => ?_, fun s hfinalized => ?_, encodedAs_fin⟩
  · rw [exec_fin, if_pos hunkeyed]
    rfl
  · rw [exec_fin, if_neg (by simp [hfinalized]), if_pos hfinalized]
    rfl

end Sys2Proof.Proofs

/-! PROOFS. The query commands (43_query.md). -/

namespace Sys2Proof.Proofs

open Sys2Proof.Machine Sys2Proof.Safety Sys2Proof.Laws

/-! ## The words of the query commands -/

theorem encodedAs_nop : EncodedAs 0x00 0 (fun _ _ => .nop) :=
  encodedAs_plain (by decide) fun _ hop hlen => ⟨congrArg _ hop, hlen⟩

theorem encodedAs_stat : EncodedAs 0x06 0 (fun _ _ => .stat) :=
  encodedAs_plain (by decide) fun _ hop hlen => ⟨congrArg _ hop, hlen⟩

theorem encodedAs_idq : EncodedAs 0x07 1 (fun index _ => .idq index) := by
  refine encodedAs_of_readFrom (fun c hop hlen => ⟨congrArg _ hop, rfl, hlen⟩) fun w hop hlegal => ?_
  simpa [hop] using ((legal_iff w).mp hlegal).2

/-! ## NOP and IDQ -/

/-- Settles O44: NOP's definition is the response, and `encodedAs_nop` its words. -/
theorem nopDoesNothing : Obligations.NopDoesNothing := ⟨fun _ => rfl, encodedAs_nop⟩

/-- Settles O46: both indices are in range (`exec_idq`), and `encodedAs_idq` is IDQ's words. -/
theorem idqReturnsTheIdentifier : Obligations.IdqReturnsTheIdentifier :=
  ⟨fun s => ⟨exec_idq (by decide) s, exec_idq (by decide) s⟩, encodedAs_idq⟩

/-! ## The fields of the status word -/

/-- A field placed at bit `k` of a 64-bit word is read back there. -/
theorem extractLsb'_field_same {n : Nat} (x : BitVec n) {k : Nat} (h : k + n ≤ 64) :
    (x.setWidth 64 <<< k).extractLsb' k n = x := by
  ext p hp
  have hbit : k + p < 64 := by omega
  simp [hbit, BitVec.getLsbD_eq_getElem hp]

/-- Bits wholly below or wholly above a field placed at bit `k` are 0. -/
theorem extractLsb'_field_of_disjoint {m : Nat} (x : BitVec m) {k i n : Nat} (h : i + n ≤ k ∨ k + m ≤ i) :
    (x.setWidth 64 <<< k).extractLsb' i n = 0 := by
  ext p hp
  obtain hbelow | habove := h
  · have hlt : i + p < k := by omega
    simp [hlt]
  · have hge : m ≤ i + p - k := by omega
    simp [BitVec.getLsbD_of_ge x _ hge]

/-- KS_CNT is at most 17, so it fits its five bits. -/
theorem ksCnt_lt_two_pow_five (s : State) : s.ksCnt.val < 2 ^ 5 := s.ksCnt.isLt.trans (by decide)

/-- The status word of 43_query.md R111, each field at its own width. -/
theorem statusWord_eq_fields (s : State) :
    statusWord s =
      (fsmBits s.fsm).setWidth 64 <<< 0 ||| (BitVec.ofNat 3 s.bufCnt.val).setWidth 64 <<< 4
        ||| s.totalLen.setWidth 64 <<< 8 ||| (BitVec.ofNat 5 s.ksCnt.val).setWidth 64 <<< 16
        ||| (2 : BitVec 4).setWidth 64 <<< 24 ||| (4 : BitVec 4).setWidth 64 <<< 28 := by
  rw [BitVec.setWidth_ofNat_of_le_of_lt (by decide) s.bufCnt.isLt,
    BitVec.setWidth_ofNat_of_le_of_lt (by decide) (ksCnt_lt_two_pow_five s), BitVec.shiftLeft_zero]
  rfl

/-- Settles O45: with the word written by its fields (`statusWord_eq_fields`), every range of bits the statement
reads is a field (`extractLsb'_field_same`) or apart from all of them (`extractLsb'_field_of_disjoint`). The counts
fit their fields, so these hold the counts themselves. -/
theorem statReturnsTheStatusWord : Obligations.StatReturnsTheStatusWord := by
  refine ⟨fun s => ⟨statusWord s, rfl, ?_⟩, encodedAs_stat⟩
  simp (disch := omega) only [statusWord_eq_fields, BitVec.extractLsb'_or, extractLsb'_field_same,
    extractLsb'_field_of_disjoint]
  simpa using ksCnt_lt_two_pow_five s

end Sys2Proof.Proofs

/-! PROOFS. Response codes, precise errors, and steps that always answer (60_exceptions.md). -/

namespace Sys2Proof.Proofs

open Sys2Proof.Machine Sys2Proof.Laws

/-! ## Every step answers -/

/-- Settles O11: with nothing offered, the first case of `step_cases` is the only one left. -/
theorem idleEngineKeepsItsState : Obligations.IdleEngineKeepsItsState := by
  intro s hinputs
  obtain ⟨-, hidle⟩ | ⟨c, rest, hcommand, -⟩ | ⟨cut, rest, hreset, -⟩ := step_cases s
  · exact hidle
  · simp [hinputs] at hcommand
  · simp [hinputs] at hreset

/-- Settles O12: an idle step and a hardware reset answer by definition, a transaction by `accept_responds`. -/
theorem stepAlwaysAnswersANextState : Obligations.StepAlwaysAnswersANextState := by
  intro s
  obtain ⟨-, hidle⟩ | ⟨c, rest, -, haccept⟩ | ⟨cut, rest, -, hreset⟩ := step_cases s
  · exact ⟨_, hidle⟩
  · obtain ⟨t, ht, -⟩ := accept_responds c { s with inputs := rest }
    exact ⟨t, haccept.trans ht⟩
  · exact ⟨_, hreset⟩

/-! ## No command reads the responses given before it -/

/-- `f` appends one response, the same whatever was given before, and reads no earlier response. -/
def AddsOneResponse (f : State → State) : Prop :=
  ∀ s : State, ∃ r : Response, ∀ earlier : List Response,
    f { s with responses := earlier } = { f s with responses := earlier ++ [r] }

theorem raise_addsOneResponse (code : RespCode) (rdata : Word64) : AddsOneResponse (raise code rdata) :=
  fun _ => ⟨⟨code, rdata⟩, fun _ => rfl⟩

/-- A check that reads no earlier response chooses between two ways of adding one response. -/
theorem AddsOneResponse.ite {f g : State → State} {p : State → Prop} [DecidablePred p] (hf : AddsOneResponse f)
    (hg : AddsOneResponse g) (hp : ∀ (s : State) (earlier : List Response), p { s with responses := earlier } ↔ p s) :
    AddsOneResponse fun s => if p s then f s else g s := by
  intro s
  by_cases h : p s
  · obtain ⟨r, hr⟩ := hf s
    refine ⟨r, fun earlier => ?_⟩
    beta_reduce
    rw [if_pos ((hp s earlier).mpr h), if_pos h]
    exact hr earlier
  · obtain ⟨r, hr⟩ := hg s
    refine ⟨r, fun earlier => ?_⟩
    beta_reduce
    rw [if_neg (mt (hp s earlier).mp h), if_neg h]
    exact hr earlier

theorem AddsOneResponse.withLegalLen {body : State → State} (hbody : AddsOneResponse body) (max : Nat)
    (len : BitVec 4) (i : Instr) : AddsOneResponse (withLegalLen max len i body) :=
  hbody.ite (raise_addsOneResponse _ _) fun _ _ => Iff.rfl

theorem AddsOneResponse.withKey {body : State → State} (hbody : AddsOneResponse body) :
    AddsOneResponse (withKey body) := by
  rw [funext (withKey_eq body)]
  exact (raise_addsOneResponse _ _).ite hbody fun _ _ => Iff.rfl

theorem AddsOneResponse.withOpenMessage {body : State → State} (hbody : AddsOneResponse body) :
    AddsOneResponse (withOpenMessage body) := by
  rw [funext (withOpenMessage_eq body)]
  exact (raise_addsOneResponse _ _).ite ((raise_addsOneResponse _ _).ite hbody fun _ _ => Iff.rfl) fun _ _ => Iff.rfl

/-- Staging bytes reads no response. -/
theorem stageBytes_with (s : State) (responses : List Response) (bytes : List Byte) :
    stageBytes { s with responses := responses } bytes = { stageBytes s bytes with responses := responses } := by
  induction bytes generalizing s with
  | nil => rfl
  | cons b bs ih => exact ih (stageByte s b)

/-- The writes of a UPD read no response. -/
theorem update_with (n : BitVec 4) (opd : Word64) (s : State) (responses : List Response) :
    update n opd { s with responses := responses } = { update n opd s with responses := responses } := by
  have habsorb : absorbBytes { s with responses := responses } (dataBytes n.toNat opd) =
      { absorbBytes s (dataBytes n.toNat opd) with
        totalLen := s.totalLen, fsm := s.fsm, responses := responses } :=
    absorbBytes_with s s.totalLen s.fsm responses _
  rw [update, habsorb, update]

/-- Every command is a total function on states that adds one response. -/
theorem exec_addsOneResponse (i : Instr) : ∃ f, AddsOneResponse f ∧ ∀ s, exec i s = .next (f s) := by
  cases i with
  | nop => exact ⟨_, fun _ => ⟨⟨.ok, 0⟩, fun _ => rfl⟩, fun _ => rfl⟩
  | keyb n opd =>
    have hstage : AddsOneResponse fun s => respond .ok 0 (stageBytes s (dataBytes n.toNat opd)) :=
      fun s => ⟨⟨.ok, 0⟩, fun earlier => congrArg (respond .ok 0) (stageBytes_with s earlier _)⟩
    exact ⟨_, hstage.withLegalLen _ _ _, fun _ => rfl⟩
  | keyc =>
    have hcommit : AddsOneResponse fun s =>
        respond .ok 0 { laneInit (commitKey { s with ksCnt := 0 }) with fsm := .fresh } :=
      fun _ => ⟨⟨.ok, 0⟩, fun _ => rfl⟩
    have hrefuse : AddsOneResponse fun s =>
        raise .invalidKeyLength (BitVec.ofNat 64 s.ksCnt.val) { s with ksCnt := 0 } :=
      fun s => ⟨⟨.invalidKeyLength, BitVec.ofNat 64 s.ksCnt.val⟩, fun _ => rfl⟩
    exact ⟨_, hcommit.ite hrefuse (p := fun s => s.ksCnt.val = Config.keyBytes) fun _ _ => Iff.rfl, fun _ => rfl⟩
  | rst => exact ⟨_, AddsOneResponse.withKey fun _ => ⟨⟨.ok, 0⟩, fun _ => rfl⟩, fun _ => rfl⟩
  | upd n opd =>
    have hupdate : AddsOneResponse fun s => respond .ok 0 (update n opd s) :=
      fun s => ⟨⟨.ok, 0⟩, fun earlier => congrArg (respond .ok 0) (update_with n opd s earlier)⟩
    exact ⟨_, hupdate.withOpenMessage.withLegalLen _ _ _, fun _ => rfl⟩
  | fin =>
    have hfinal : AddsOneResponse fun s => respond .ok (digest (finalize s).lanes) (finalize s) :=
      fun s => ⟨⟨.ok, digest (finalize s).lanes⟩, fun _ => rfl⟩
    exact ⟨_, hfinal.withOpenMessage, fun _ => rfl⟩
  | stat => exact ⟨_, fun s => ⟨⟨.ok, statusWord s⟩, fun _ => rfl⟩, fun _ => rfl⟩
  | idq index =>
    have hident : AddsOneResponse (respond .ok (identifierWord index)) :=
      fun _ => ⟨⟨.ok, identifierWord index⟩, fun _ => rfl⟩
    exact ⟨_, hident.withLegalLen _ _ _, fun _ => rfl⟩

/-- Settles O14: the command appends one response to any earlier ones (`exec_addsOneResponse`), to the state's own
among them. -/
theorem earlierResponsesChangeNothing : Obligations.EarlierResponsesChangeNothing := by
  intro i s earlier
  obtain ⟨f, hf, hexec⟩ := exec_addsOneResponse i
  obtain ⟨r, hr⟩ := hf s
  exact ⟨f s, r, hexec s, congrArg State.responses (hr s.responses), (hexec _).trans (congrArg _ (hr earlier))⟩

/-! ## What a transaction is answered, by the priority of R125 -/

/-- The word's command passes every check on the state: a key where it needs one, an open message where it
needs that, and 16 staged bytes where it commits them (60_exceptions.md R122 to R124). -/
def Passes (w : CmdWord) (s : State) : Prop :=
  ¬ (s.fsm = .unkeyed ∧ (opField w).toNat ∈ [0x03, 0x04, 0x05]) ∧
  ¬ (s.fsm = .finalized ∧ (opField w).toNat ∈ [0x04, 0x05]) ∧
  ¬ (s.ksCnt.val ≠ 16 ∧ (opField w).toNat = 0x02)

/-- RDATA of an OK response to the word (30_encoding.md R69). -/
def okData (w : CmdWord) (s : State) : Word64 :=
  if (opField w).toNat = 0x05 then digest (finalLanes (finalBlock s) s.lanes)
  else if (opField w).toNat = 0x06 then statusWord s
  else if (opField w).toNat = 0x07 then identifierWord (lenField w)
  else 0

/-- The states a transaction can end in, one case for each response code: an error leaves what stands in its case,
an OK comes after any writes `u`. -/
inductive Answered (c : Command) (s : State) : State → Prop
  | illegal (hlegal : legal c.cmd = false) : Answered c s (raiseIllegal c.cmd s)
  | noKey (hlegal : legal c.cmd = true)
      (hcheck : s.fsm = .unkeyed ∧ (opField c.cmd).toNat ∈ [0x03, 0x04, 0x05]) : Answered c s (raise .noKey 0 s)
  | sequence (hlegal : legal c.cmd = true)
      (hcheck : s.fsm = .finalized ∧ (opField c.cmd).toNat ∈ [0x04, 0x05]) : Answered c s (raise .sequence 0 s)
  | invalidKeyLength (hdecode : decode c = .ok .keyc) (hcnt : s.ksCnt.val ≠ 16) :
      Answered c s (raise .invalidKeyLength (BitVec.ofNat 64 s.ksCnt.val) { s with ksCnt := 0 })
  | ok {u : State} {rdata : Word64} (hlegal : legal c.cmd = true) (hpasses : Passes c.cmd s)
      (hrdata : rdata = okData c.cmd s) (hu : u.responses = s.responses) : Answered c s (respond .ok rdata u)

theorem legal_eq_false_of_decode_error {c : Command} {e : Illegal} (h : decode c = .error e) :
    legal c.cmd = false := by
  refine Bool.eq_false_of_not_eq_true fun hlegal => ?_
  obtain ⟨i, hi⟩ := (exists_decode_ok_iff c).mpr hlegal
  simp [h] at hi

/-- Every transaction is answered in one of the ways of `Answered`. -/
theorem accept_answered (c : Command) (s : State) : ∃ t, accept c s = .next t ∧ Answered c s t := by
  cases hd : decode c with
  | error e =>
    exact ⟨_, accept_of_decode_error hd s, .illegal (legal_eq_false_of_decode_error hd)⟩
  | ok i =>
    have hlegal : legal c.cmd = true := (exists_decode_ok_iff c).mp ⟨i, hd⟩
    obtain ⟨-, hread⟩ := (decode_ok_iff c i).mp hd
    rw [accept_of_decode_ok hd]
    cases i with
    | nop | stat =>
      obtain ⟨hop, -⟩ := hread
      exact ⟨_, rfl, .ok hlegal (by simp [Passes, hop]) (by simp [okData, hop]) rfl⟩
    | keyb n opd =>
      obtain ⟨hop, -, hn, -⟩ := hread
      exact ⟨_, exec_keyb hn opd s,
        .ok hlegal (by simp [Passes, hop]) (by simp [okData, hop]) (stageBytes_responses s _)⟩
    | keyc =>
      obtain ⟨hop, -⟩ := hread
      by_cases hcnt : s.ksCnt.val = 16
      · exact ⟨_, exec_keyc_of_sixteen hcnt, .ok hlegal (by simp [Passes, hop, hcnt]) (by simp [okData, hop]) rfl⟩
      · exact ⟨_, exec_keyc_of_ne_sixteen hcnt, .invalidKeyLength hd hcnt⟩
    | rst =>
      obtain ⟨hop, -⟩ := hread
      refine ⟨_, exec_rst s, ?_⟩
      split
      next hkey => exact .noKey hlegal ⟨hkey, by simp [hop]⟩
      next hkey => exact .ok hlegal (by simp [Passes, hop, hkey]) (by simp [okData, hop]) rfl
    | upd n opd =>
      obtain ⟨hop, -, hn, -⟩ := hread
      refine ⟨_, exec_upd hn opd s, ?_⟩
      split_ifs with hkey hfinal
      · exact .noKey hlegal ⟨hkey, by simp [hop]⟩
      · exact .sequence hlegal ⟨hfinal, by simp [hop]⟩
      · exact .ok hlegal (by simp [Passes, hop, hkey, hfinal]) (by simp [okData, hop]) (update_responses n opd s)
    | fin =>
      obtain ⟨hop, -⟩ := hread
      refine ⟨_, exec_fin s, ?_⟩
      split_ifs with hkey hfinal
      · exact .noKey hlegal ⟨hkey, by simp [hop]⟩
      · exact .sequence hlegal ⟨hfinal, by simp [hop]⟩
      · exact .ok hlegal (by simp [Passes, hop, hkey, hfinal]) (by simp [okData, hop]) rfl
    | idq index =>
      obtain ⟨hop, rfl, hindex⟩ := hread
      exact ⟨_, exec_idq hindex s, .ok hlegal (by simp [Passes, hop]) (by simp [okData, hop]) rfl⟩

/-- Settles O48: each case of `Answered` is one branch of the priority, and excludes the branches before it. -/
theorem responseCodesFollowThePriority : Obligations.ResponseCodesFollowThePriority := by
  refine ⟨⟨rfl, rfl, rfl, rfl, rfl⟩, fun c s => ?_⟩
  have hopField : c.cmd.extractLsb' 0 8 = opField c.cmd := rfl
  obtain ⟨t, ht, hanswer⟩ := accept_answered c s
  rw [hopField]
  cases hanswer with
  | illegal hlegal =>
    refine ⟨_, ⟨.illegalCmd, c.cmd.setWidth 64⟩, ht, rfl, ?_⟩
    rw [if_pos hlegal]
  | noKey hlegal hcheck =>
    refine ⟨_, ⟨.noKey, 0⟩, ht, rfl, ?_⟩
    rw [if_neg (by simp [hlegal]), if_pos hcheck]
  | sequence hlegal hcheck =>
    refine ⟨_, ⟨.sequence, 0⟩, ht, rfl, ?_⟩
    rw [if_neg (by simp [hlegal]), if_neg (by simp [hcheck.1]), if_pos hcheck]
  | invalidKeyLength hdecode hcnt =>
    have hlegal : legal c.cmd = true := (exists_decode_ok_iff c).mp ⟨_, hdecode⟩
    obtain ⟨-, hop, -⟩ := (decode_ok_iff c _).mp hdecode
    refine ⟨_, ⟨.invalidKeyLength, BitVec.ofNat 64 s.ksCnt.val⟩, ht, rfl, ?_⟩
    rw [if_neg (by simp [hlegal]), if_neg (by simp [hop]), if_neg (by simp [hop]), if_pos ⟨hcnt, hop⟩]
  | @ok u rdata hlegal hpasses hrdata hu =>
    obtain ⟨hkey, hopen, hlen⟩ := hpasses
    refine ⟨_, ⟨.ok, rdata⟩, ht, congrArg (· ++ _) hu, ?_⟩
    rw [if_neg (by simp [hlegal]), if_neg hkey, if_neg hopen, if_neg hlen]
    exact ⟨rfl, hrdata⟩

/-- Settles O49: an error's case of `Answered` names the state it leaves, and the codes tell the cases apart. -/
theorem errorsArePrecise : Obligations.ErrorsArePrecise := by
  intro c s
  obtain ⟨t, ht, hanswer⟩ := accept_answered c s
  cases hanswer with
  | illegal => exact ⟨_, ⟨.illegalCmd, _⟩, ht, rfl, fun _ => rfl, nofun⟩
  | noKey => exact ⟨_, ⟨.noKey, _⟩, ht, rfl, fun _ => rfl, nofun⟩
  | sequence => exact ⟨_, ⟨.sequence, _⟩, ht, rfl, fun _ => rfl, nofun⟩
  | invalidKeyLength hdecode => exact ⟨_, ⟨.invalidKeyLength, _⟩, ht, rfl, by simp, fun _ => ⟨hdecode, rfl⟩⟩
  | ok _ _ _ hu => exact ⟨_, ⟨.ok, _⟩, ht, congrArg (· ++ _) hu, by simp, nofun⟩

end Sys2Proof.Proofs

/-! PROOFS. Hardware reset (70_reset_and_hazards.md). -/

namespace Sys2Proof.Proofs

open Sys2Proof.Machine Sys2Proof.Laws

/-- Settles O4: the step of a hardware reset is `hardwareReset`, which keeps the two ports and takes every element,
whatever it held, from the reset state; the staged and buffered bytes there are those of `reset_ks_getElem` and
`reset_buf_getElem`. -/
theorem hardwareResetClearsEveryElement : Obligations.HardwareResetClearsEveryElement := by
  intro s cut rest h
  refine ⟨_, step_of_hardwareReset h, hardwareReset_responses _, hardwareReset_inputs _,
    rfl, rfl, rfl, rfl, rfl, rfl, rfl, fun i hi => ?_, fun i hi => ?_⟩
  · rw [hardwareReset_ks]
    exact reset_ks_getElem i hi
  · rw [hardwareReset_buf]
    exact reset_buf_getElem i hi

end Sys2Proof.Proofs

/-! PROOFS. The invariants at reset and over every step (10_state.md section 7). -/

namespace Sys2Proof.Proofs

open Sys2Proof.Machine Sys2Proof.Safety Sys2Proof.Laws

/-! ## The invariants in each life-cycle state -/

/-- Clauses (a) and (b) of 10_state.md R29 hold by the types of the counts, so the others are all there is to show. -/
theorem inv_of_fsm {s : State} (fresh : s.fsm = .fresh → s.bufCnt = 0 ∧ s.totalLen = 0 ∧ Holds s [])
    (absorbing : s.fsm = .absorbing → ∃ m, Holds s m) (unkeyed : s.fsm = .unkeyed → s.k0 = 0 ∧ s.k1 = 0) : Inv s :=
  ⟨Nat.le_of_lt_succ s.bufCnt.isLt, Nat.le_of_lt_succ s.ksCnt.isLt, fresh, absorbing, unkeyed⟩

theorem inv_of_unkeyed {s : State} (hfsm : s.fsm = .unkeyed) (hk0 : s.k0 = 0) (hk1 : s.k1 = 0) : Inv s :=
  inv_of_fsm (by simp [hfsm]) (by simp [hfsm]) fun _ => ⟨hk0, hk1⟩

/-- An engine right after LaneInit holds the empty message. -/
theorem holds_nil_of_laneInit {s : State} (hlanes : s.lanes = initLanes s.k0 s.k1) (hcnt : s.bufCnt = 0)
    (htotal : s.totalLen = 0) : Holds s [] :=
  ⟨hlanes, by simp [tailBytes, hcnt, restBytes], htotal⟩

theorem inv_of_fresh {s : State} (hfsm : s.fsm = .fresh) (hlanes : s.lanes = initLanes s.k0 s.k1)
    (hcnt : s.bufCnt = 0) (htotal : s.totalLen = 0) : Inv s :=
  inv_of_fsm (fun _ => ⟨hcnt, htotal, holds_nil_of_laneInit hlanes hcnt htotal⟩) (by simp [hfsm]) (by simp [hfsm])

theorem inv_of_absorbing {s : State} {m : List Byte} (hfsm : s.fsm = .absorbing) (h : Holds s m) : Inv s :=
  inv_of_fsm (by simp [hfsm]) (fun _ => ⟨m, h⟩) (by simp [hfsm])

/-- Nothing is claimed of the lanes and the tail after FIN. -/
theorem inv_of_finalized {s : State} (hfsm : s.fsm = .finalized) : Inv s :=
  inv_of_fsm (by simp [hfsm]) (by simp [hfsm]) (by simp [hfsm])

/-- In an open message an engine that meets the invariants holds some message. -/
theorem exists_holds_of_inv {s : State} (h : Inv s) (hopen : s.fsm = .fresh ∨ s.fsm = .absorbing) : ∃ m, Holds s m := by
  obtain hfsm | hfsm := hopen
  · obtain ⟨-, -, hholds⟩ := h.fresh hfsm
    exact ⟨[], hholds⟩
  · exact h.absorbing hfsm

/-! ## What keeps them -/

/-- Every element the invariants speak of, but for the staging count, is the same in `t` as in `s`. -/
structure SameMessage (s t : State) : Prop where
  lanes    : t.lanes = s.lanes
  k0       : t.k0 = s.k0
  k1       : t.k1 = s.k1
  buf      : t.buf = s.buf
  bufCnt   : t.bufCnt = s.bufCnt
  totalLen : t.totalLen = s.totalLen
  fsm      : t.fsm = s.fsm

theorem SameMessage.holds {s t : State} (hst : SameMessage s t) {m : List Byte} (h : Holds s m) : Holds t m where
  lanes := by rw [hst.lanes, hst.k0, hst.k1, h.lanes]
  tail := by rw [tailBytes, hst.buf, hst.bufCnt, ← tailBytes, h.tail]
  totalLen := hst.totalLen.trans h.totalLen

theorem SameMessage.inv {s t : State} (hst : SameMessage s t) (h : Inv s) : Inv t := by
  refine inv_of_fsm (fun hfsm => ?_) (fun hfsm => ?_) fun hfsm => ?_
  · obtain ⟨hcnt, htotal, hholds⟩ := h.fresh (hst.fsm.symm.trans hfsm)
    exact ⟨hst.bufCnt.trans hcnt, hst.totalLen.trans htotal, hst.holds hholds⟩
  · obtain ⟨m, hholds⟩ := h.absorbing (hst.fsm.symm.trans hfsm)
    exact ⟨m, hst.holds hholds⟩
  · obtain ⟨hk0, hk1⟩ := h.unkeyed (hst.fsm.symm.trans hfsm)
    exact ⟨hst.k0.trans hk0, hst.k1.trans hk1⟩

theorem respond_sameMessage (code : RespCode) (rdata : Word64) (s : State) : SameMessage s (respond code rdata s) :=
  ⟨rfl, rfl, rfl, rfl, rfl, rfl, rfl⟩

theorem inv_respond {s : State} (h : Inv s) (code : RespCode) (rdata : Word64) : Inv (respond code rdata s) :=
  (respond_sameMessage code rdata s).inv h

theorem inv_raise {s : State} (h : Inv s) (code : RespCode) (rdata : Word64) : Inv (raise code rdata s) :=
  inv_respond h code rdata

theorem inv_stageBytes {s : State} (h : Inv s) (bytes : List Byte) : Inv (stageBytes s bytes) :=
  SameMessage.inv ⟨stageBytes_lanes s bytes, stageBytes_k0 s bytes, stageBytes_k1 s bytes, stageBytes_buf s bytes,
    stageBytes_bufCnt s bytes, stageBytes_totalLen s bytes, stageBytes_fsm s bytes⟩ h

/-- The writes of a UPD append its data bytes to the message held (42_hasher.md R101). -/
theorem update_holds {s : State} {m : List Byte} (h : Holds s m) (n : BitVec 4) (opd : Word64) :
    Holds (update n opd s) (m ++ dataBytes n.toNat opd) := by
  obtain ⟨hlanes, htail⟩ := absorbBytes_holds s _ m (dataBytes n.toNat opd) h.lanes h.tail
  refine ⟨by simpa using hlanes, htail, ?_⟩
  rw [update_totalLen, h.totalLen, add8, List.length_append, dataBytes_length, BitVec.ofNat_add, BitVec.ofNat_toNat]

theorem open_of_keyed_of_not_finalized {s : State} (hkeyed : s.fsm ≠ .unkeyed) (hnotFinal : s.fsm ≠ .finalized) :
    s.fsm = .fresh ∨ s.fsm = .absorbing := by
  cases h : s.fsm with
  | unkeyed => exact absurd h hkeyed
  | fresh => exact .inl rfl
  | absorbing => exact .inr rfl
  | finalized => exact absurd h hnotFinal

/-- Every well-formed command keeps the invariants: what is refused, and KEYB, leave the message; KEYC and RST start
the empty one; UPD appends to it; and FIN ends it. -/
theorem exec_inv {i : Instr} (hw : wellFormed i = true) {s : State} (h : Inv s) : ∃ t, exec i s = .next t ∧ Inv t := by
  cases i with
  | nop | stat => exact ⟨_, rfl, inv_respond h _ _⟩
  | keyb n opd => exact ⟨_, exec_keyb (of_decide_eq_true hw) opd s, inv_respond (inv_stageBytes h _) _ _⟩
  | keyc =>
    by_cases hcnt : s.ksCnt.val = 16
    · exact ⟨_, exec_keyc_of_sixteen hcnt, inv_of_fresh rfl rfl rfl rfl⟩
    · have hclear : SameMessage s { s with ksCnt := 0 } := ⟨rfl, rfl, rfl, rfl, rfl, rfl, rfl⟩
      exact ⟨_, exec_keyc_of_ne_sixteen hcnt, inv_raise (hclear.inv h) _ _⟩
  | rst =>
    refine ⟨_, exec_rst s, ?_⟩
    split
    · exact inv_raise h _ _
    · exact inv_of_fresh rfl rfl rfl rfl
  | upd n opd =>
    refine ⟨_, exec_upd (of_decide_eq_true hw) opd s, ?_⟩
    split_ifs with hunkeyed hfinalized
    · exact inv_raise h _ _
    · exact inv_raise h _ _
    · obtain ⟨m, hm⟩ := exists_holds_of_inv h (open_of_keyed_of_not_finalized hunkeyed hfinalized)
      exact inv_respond (inv_of_absorbing rfl (update_holds hm n opd)) _ _
  | fin =>
    refine ⟨_, exec_fin s, ?_⟩
    split_ifs
    · exact inv_raise h _ _
    · exact inv_raise h _ _
    · exact inv_of_finalized rfl
  | idq index => exact ⟨_, exec_idq (of_decide_eq_true hw) s, inv_respond h _ _⟩

theorem accept_inv (c : Command) {s : State} (h : Inv s) : ∃ t, accept c s = .next t ∧ Inv t := by
  cases hd : decode c with
  | error e => exact ⟨_, accept_of_decode_error hd s, inv_raise h _ _⟩
  | ok i =>
    rw [accept_of_decode_ok hd]
    exact exec_inv (decode_ok_wellFormed hd) h

/-! ## Reset and every step -/

/-- Settles O5: the reset state is UNKEYED and its key halves are 0. -/
theorem resetStateMeetsTheInvariants : Obligations.ResetStateMeetsTheInvariants := inv_of_unkeyed rfl rfl rfl

/-- Settles O6: an idle step changes nothing, a transaction keeps the invariants (`accept_inv`), whose elements do
not include the inputs it is taken from, and a hardware reset leaves an UNKEYED engine without a key. -/
theorem everyStepKeepsTheInvariants : Obligations.EveryStepKeepsTheInvariants := by
  intro s t h hstep
  obtain ⟨-, hidle⟩ | ⟨c, rest, -, haccept⟩ | ⟨cut, rest, -, hreset⟩ := step_cases s
  · obtain rfl : s = t := Host.Outcome.next.inj (hidle.symm.trans hstep)
    exact h
  · have htaken : SameMessage s { s with inputs := rest } := ⟨rfl, rfl, rfl, rfl, rfl, rfl, rfl⟩
    obtain ⟨u, hu, hinv⟩ := accept_inv c (htaken.inv h)
    obtain rfl : u = t := Host.Outcome.next.inj (hu.symm.trans (haccept.symm.trans hstep))
    exact hinv
  · obtain rfl : _ = t := Host.Outcome.next.inj (hreset.symm.trans hstep)
    exact inv_of_unkeyed rfl rfl rfl

end Sys2Proof.Proofs

/-! PROOFS. The encoding both ways, and the legal words counted (30_encoding.md). -/

namespace Sys2Proof.Proofs

open Sys2Proof.Laws

/-- Settles O21: `decode_encode`, one case for each command of the opcode map. -/
theorem decodeOfEncodeIsTheCommand : Obligations.DecodeOfEncodeIsTheCommand := fun _ hw => decode_encode hw

/-- Settles O22: the word by `encode_cmd_of_decode_ok`; the operand of KEYB and UPD is the one they were read from. -/
theorem encodeOfDecodeIsTheWord : Obligations.EncodeOfDecodeIsTheWord := by
  intro c i h
  refine ⟨decode_ok_wellFormed h, encode_cmd_of_decode_ok h, ?_⟩
  obtain ⟨-, hread⟩ := (decode_ok_iff c i).mp h
  rintro ⟨n, d, rfl | rfl⟩
  · obtain ⟨-, -, -, hopd⟩ := hread
    exact hopd
  · obtain ⟨-, -, -, hopd⟩ := hread
    exact hopd

/-! ## The legal words, listed -/

/-- The words with RSV = 0, the given OP, and a LEN below `k`. -/
def wordsOf (op : BitVec 8) (k : Nat) : List CmdWord := (List.range k).map fun n => cmdWord (BitVec.ofNat 4 n) op

theorem mem_wordsOf {op : BitVec 8} {k : Nat} (hk : k ≤ 16) {w : CmdWord} :
    w ∈ wordsOf op k ↔ rsvField w = 0 ∧ (lenField w).toNat < k ∧ (opField w).toNat = op.toNat := by
  rw [wordsOf, List.mem_map]
  constructor
  · rintro ⟨n, hn, rfl⟩
    have hlen : (BitVec.ofNat 4 n).toNat = n := Nat.mod_eq_of_lt ((List.mem_range.mp hn).trans_le hk)
    rw [rsvField_cmdWord, lenField_cmdWord, opField_cmdWord, hlen]
    exact ⟨rfl, List.mem_range.mp hn, rfl⟩
  · rintro ⟨hrsv, hlen, hop⟩
    refine ⟨(lenField w).toNat, List.mem_range.mpr hlen, (eq_cmdWord_iff.mpr ⟨hrsv, ?_, ?_⟩).symm⟩
    · rw [BitVec.ofNat_toNat, BitVec.setWidth_eq]
    · exact BitVec.eq_of_toNat_eq hop

/-- The words of the opcode map: for each OP, one for each LEN it may have (30_encoding.md R62, R64). -/
def legalWords : List CmdWord :=
  wordsOf 0x00 1 ++ wordsOf 0x01 9 ++ wordsOf 0x02 1 ++ wordsOf 0x03 1 ++ wordsOf 0x04 9 ++ wordsOf 0x05 1 ++
    wordsOf 0x06 1 ++ wordsOf 0x07 2

/-- The rows of `legalWords` and the cases of Legal(CMD) fix the same LEN and OP fields. -/
theorem mem_legalWords_iff (w : CmdWord) : w ∈ legalWords ↔ legal w = true := by
  have hzero : lenField w = 0 ↔ (lenField w).toNat = 0 := BitVec.toNat_inj.symm
  simp only [legalWords, legal_iff, List.mem_append, List.mem_cons, List.not_mem_nil, or_false, hzero,
    mem_wordsOf (show 1 ≤ 16 by decide), mem_wordsOf (show 2 ≤ 16 by decide), mem_wordsOf (show 9 ≤ 16 by decide),
    ← and_or_left, BitVec.reduceToNat]
  refine and_congr_right fun _ => ?_
  omega

/-- Settles O18: the words are listed by OP and LEN, counted by evaluation, and are the legal ones
(`mem_legalWords_iff`), which are those that decode. -/
theorem exactlyTwentyFiveLegalWords : Obligations.ExactlyTwentyFiveLegalWords :=
  ⟨legalWords, by decide, by decide, fun w opd => (mem_legalWords_iff w).trans (exists_decode_ok_iff ⟨w, opd⟩).symm⟩

end Sys2Proof.Proofs

/-! PROOFS. The frames of the commands, the key committed again, and the identifier (40_key.md, 42_hasher.md,
43_query.md). -/

namespace Sys2Proof.Proofs

open Sys2Proof.Machine Sys2Proof.Laws

/-! ## Frames -/

theorem exec_keyb_of_len_above {n : BitVec 4} (hn : ¬ n.toNat ≤ 8) (opd : Word64) (s : State) :
    exec (.keyb n opd) s = .next (raiseIllegal (encode (.keyb n opd)).cmd s) :=
  congrArg _ (if_neg hn)

theorem exec_upd_of_len_above {n : BitVec 4} (hn : ¬ n.toNat ≤ 8) (opd : Word64) (s : State) :
    exec (.upd n opd) s = .next (raiseIllegal (encode (.upd n opd)).cmd s) :=
  congrArg _ (if_neg hn)

/-- Settles O16: each way a command can end writes named elements, so its frame holds by definition; for the loops of
KEYB and UPD it is `stageBytes_frame` and `update_frame`. -/
theorem commandsChangeOnlyTheirElements : Obligations.CommandsChangeOnlyTheirElements := by
  intro i s
  cases i with
  | nop | stat => exact ⟨_, rfl, rfl⟩
  | keyb n opd =>
    by_cases hn : n.toNat ≤ 8
    · have hframe := congrArg (respond .ok 0) (stageBytes_frame s (dataBytes n.toNat opd))
      exact ⟨_, (exec_keyb hn opd s).trans (congrArg _ hframe), rfl⟩
    · exact ⟨_, exec_keyb_of_len_above hn opd s, rfl⟩
  | keyc =>
    by_cases hcnt : s.ksCnt.val = 16
    · exact ⟨_, exec_keyc_of_sixteen hcnt, rfl⟩
    · exact ⟨_, exec_keyc_of_ne_sixteen hcnt, rfl⟩
  | rst =>
    rw [exec_rst]
    split_ifs
    · exact ⟨_, rfl, rfl⟩
    · exact ⟨_, rfl, rfl⟩
  | upd n opd =>
    by_cases hn : n.toNat ≤ 8
    · rw [exec_upd hn]
      split_ifs
      · exact ⟨_, rfl, rfl⟩
      · exact ⟨_, rfl, rfl⟩
      · have hframe := congrArg (respond .ok 0) (update_frame n opd s)
        exact ⟨_, congrArg _ hframe, rfl⟩
    · exact ⟨_, exec_upd_of_len_above hn opd s, rfl⟩
  | fin =>
    rw [exec_fin]
    split_ifs
    · exact ⟨_, rfl, rfl⟩
    · exact ⟨_, rfl, rfl⟩
    · exact ⟨_, rfl, rfl⟩
  | idq index =>
    by_cases hi : index.toNat ≤ 1
    · exact ⟨_, exec_idq hi s, rfl⟩
    · exact ⟨_, exec_idq_of_index_above hi s, rfl⟩

/-! ## The same key committed again -/

theorem commitKey_eq_self {s : State} (hk0 : s.k0 = le (s.ks.toList.take 8)) (hk1 : s.k1 = le (s.ks.toList.drop 8)) :
    commitKey s = s := by
  rw [commitKey, ← hk0, ← hk1]

/-- Settles O31: committing the key the engine has changes no half (`commitKey_eq_self`), and what KEYC does then but
clear KS_CNT is RST. -/
theorem recommittingTheKeyIsReset : Obligations.RecommittingTheKeyIsReset := by
  intro s hcnt hkeyed hk0 hk1
  have hkey : commitKey { s with ksCnt := 0 } = { s with ksCnt := 0 } := commitKey_eq_self hk0 hk1
  refine ⟨_, exec_rst_of_keyed hkeyed, ?_⟩
  rw [exec_keyc_of_sixteen hcnt, hkey]
  rfl

/-! ## The identifier -/

/-- Settles O47: the two words' sixteen bytes, evaluated. -/
theorem identifierSpellsTheName : Obligations.IdentifierSpellsTheName := by
  unfold Obligations.IdentifierSpellsTheName
  decide

end Sys2Proof.Proofs

/-! PROOFS. SipRound and compression undone (41_permutation.md section 2). -/

namespace Sys2Proof.Proofs

open Sys2Proof.Machine

theorem rotl64_getLsbD (x : Word64) {n p : Nat} (hn : n ≤ 64) (hp : p < 64) :
    (rotl64 x n).getLsbD p = if p < n then x.getLsbD (64 - n + p) else x.getLsbD (p - n) := by
  rw [rotl64, BitVec.getLsbD_or, BitVec.getLsbD_shiftLeft, BitVec.getLsbD_ushiftRight]
  by_cases h : p < n
  · simp [h]
  · simp [h, hp, BitVec.getLsbD_of_ge x (64 - n + p) (by omega)]

/-- A rotation by n is undone by one through the other 64 - n bits. -/
theorem rotl64_rotl64_of_add_eq (x : Word64) {n m : Nat} (h : n + m = 64) : rotl64 (rotl64 x n) m = x := by
  apply BitVec.eq_of_getLsbD_eq
  intro p hp
  rw [rotl64_getLsbD _ (by omega) hp]
  split
  next hlow =>
    rw [rotl64_getLsbD x (by omega) (by omega), if_neg (by omega)]
    congr 1
    omega
  next hhigh =>
    rw [rotl64_getLsbD x (by omega) (by omega), if_pos (by omega)]
    congr 1
    omega

/-- The eight steps of SipRound undone, the last first. -/
def unSipRound (w : Lanes) : Lanes :=
  let c2 := rotl64 w.v2 32
  let b3 := rotl64 (w.v3 ^^^ w.v0) 43
  let b1 := rotl64 (w.v1 ^^^ c2) 47
  let a0 := rotl64 (w.v0 - b3) 32
  let a2 := c2 - b1
  let v3 := rotl64 (b3 ^^^ a2) 48
  let v1 := rotl64 (b1 ^^^ a0) 51
  ⟨a0 - v1, v1, a2 - v3, v3⟩

/-- Each step cancels against its own undoing, a rotation by `rotl64_rotl64_of_add_eq`. -/
theorem unSipRound_sipRound : Function.LeftInverse unSipRound sipRound := by
  intro v
  simp [unSipRound, sipRound, add64, xor64, rotl64_rotl64_of_add_eq]

theorem sipRound_unSipRound : Function.RightInverse unSipRound sipRound := by
  intro w
  simp [unSipRound, sipRound, add64, xor64, rotl64_rotl64_of_add_eq]

theorem sipRound_bijective : Function.Bijective sipRound :=
  Function.bijective_iff_has_inverse.mpr ⟨unSipRound, unSipRound_sipRound, sipRound_unSipRound⟩

theorem sipRounds_bijective (k : Nat) : Function.Bijective (sipRounds k) := by
  induction k with
  | zero => exact Function.bijective_id
  | succ k ih => exact ih.comp sipRound_bijective

/-- The exclusive or of a block into lane v3, the first step of `compress`. -/
def xorV3 (m : Word64) (v : Lanes) : Lanes := { v with v3 := xor64 v.v3 m }

/-- The exclusive or of a block into lane v0, the last step of `compress`. -/
def xorV0 (m : Word64) (v : Lanes) : Lanes := { v with v0 := xor64 v.v0 m }

theorem xorV3_involutive (m : Word64) : Function.Involutive (xorV3 m) := by
  intro v
  simp [xorV3, xor64]

theorem xorV0_involutive (m : Word64) : Function.Involutive (xorV0 m) := by
  intro v
  simp [xorV0, xor64]

theorem compress_eq_comp (m : Word64) : compress m = xorV0 m ∘ sipRounds Config.cRounds ∘ xorV3 m := rfl

/-- Settles O34: SipRound has the inverse `unSipRound`, and compression is its rounds between two exclusive ors, each
its own inverse. -/
theorem sipRoundAndCompressArePermutations : Obligations.SipRoundAndCompressArePermutations := by
  refine ⟨sipRound_bijective, fun m => ?_⟩
  rw [compress_eq_comp]
  exact (xorV0_involutive m).bijective.comp ((sipRounds_bijective _).comp (xorV3_involutive m).bijective)

end Sys2Proof.Proofs

/-! PROOFS. Chunking, the digest law and the length boundaries (42_hasher.md section 4). -/

namespace Sys2Proof.Proofs

open Sys2Proof.Machine Sys2Proof.Safety Sys2Proof.Laws

/-! ## Runs do not read the responses given before them -/

theorem accept_addsOneResponse (c : Command) : ∃ f, AddsOneResponse f ∧ ∀ s, accept c s = .next (f s) := by
  cases hd : decode c with
  | error e => exact ⟨_, raise_addsOneResponse .illegalCmd (c.cmd.setWidth 64), accept_of_decode_error hd⟩
  | ok i =>
    obtain ⟨f, hf, hexec⟩ := exec_addsOneResponse i
    exact ⟨f, hf, fun s => (accept_of_decode_ok hd s).trans (hexec s)⟩

/-- Whatever responses stand before them, transactions end in one state and add one list of responses, one for each. -/
theorem after_addsResponses (cs : List Command) (s : State) :
    ∃ (t : State) (rs : List Response), rs.length = cs.length ∧ ∀ earlier : List Response,
      after { s with responses := earlier } cs = some { t with responses := earlier ++ rs } := by
  induction cs generalizing s with
  | nil => exact ⟨s, [], rfl, fun earlier => by simp [after]⟩
  | cons c cs ih =>
    obtain ⟨f, hf, haccept⟩ := accept_addsOneResponse c
    obtain ⟨r, hr⟩ := hf s
    obtain ⟨t, rs, hlen, hafter⟩ := ih (f s)
    refine ⟨t, r :: rs, by simp [hlen], fun earlier => ?_⟩
    rw [after_cons_of_accept ((haccept _).trans (congrArg _ (hr earlier))), hafter]
    simp

/-- Two states that differ in their responses alone answer the last of some transactions alike. -/
theorem after_getLast?_eq (cs : List Command) (c : Command) (s : State) (earlier earlier' : List Response) :
    ∃ (t t' : State) (r : Response), after { s with responses := earlier } (cs ++ [c]) = some t ∧
      after { s with responses := earlier' } (cs ++ [c]) = some t' ∧
      t.responses.getLast? = some r ∧ t'.responses.getLast? = some r := by
  obtain ⟨t, rs, hlen, hafter⟩ := after_addsResponses (cs ++ [c]) s
  have hne : rs ≠ [] := List.ne_nil_of_length_pos (by simp [hlen])
  have hlast : ∀ before : List Response, (before ++ rs).getLast? = some (rs.getLast hne) := fun before => by
    rw [List.getLast?_append_of_ne_nil _ hne, List.getLast?_eq_getLast_of_ne_nil]
  exact ⟨_, _, _, hafter earlier, hafter earlier', hlast earlier, hlast earlier'⟩

/-! ## Chunking -/

/-- The state after legal UPDs is made of their data stream, but for FSM and the responses. -/
theorem afterUpdates_eq_of_stream_eq {ps qs : Pieces} (h : stream ps = stream qs) (s : State) :
    afterUpdates s ps = { afterUpdates s qs with
      fsm := (afterUpdates s ps).fsm, responses := (afterUpdates s ps).responses } := by
  rw [afterUpdates, h, afterUpdates]

theorem afterUpdates_fsm_of_ne_nil {ps : Pieces} (h : ps ≠ []) (s : State) : (afterUpdates s ps).fsm = .absorbing :=
  if_neg h

/-- FIN reads FSM for its check alone: the digest is made of the lanes and the final block (42_hasher.md R102). -/
theorem exec_fin_of_same_lanes {t u : State} (hlanes : t.lanes = u.lanes) (hblock : finalBlock t = finalBlock u)
    (ht : t.fsm = .fresh ∨ t.fsm = .absorbing) (hu : u.fsm = .fresh ∨ u.fsm = .absorbing) :
    ∃ (t' u' : State) (d : Word64), exec .fin t = .next t' ∧ exec .fin u = .next u' ∧
      t'.responses = t.responses ++ [⟨.ok, d⟩] ∧ u'.responses = u.responses ++ [⟨.ok, d⟩] := by
  refine ⟨_, _, digest (finalLanes (finalBlock u) u.lanes), exec_fin_of_open ht, exec_fin_of_open hu, ?_, rfl⟩
  rw [hlanes, hblock]
  rfl

/-- Settles O40: both sequences absorb one stream, so the two states differ in FSM and the responses alone, and not in
FSM where neither is empty; what follows reads no earlier response (`after_getLast?_eq`), and FIN no FSM. -/
theorem chunkingDoesNotMatter : Obligations.ChunkingDoesNotMatter := by
  intro s ps qs hopen hps hqs hstream
  have hsame := afterUpdates_eq_of_stream_eq hstream s
  have hfsm : ps ≠ [] → qs ≠ [] → (afterUpdates s ps).fsm = (afterUpdates s qs).fsm := fun hp hq =>
    (afterUpdates_fsm_of_ne_nil hp s).trans (afterUpdates_fsm_of_ne_nil hq s).symm
  have hlanes : (afterUpdates s ps).lanes = (afterUpdates s qs).lanes := by rw [hsame]
  have hblock : finalBlock (afterUpdates s ps) = finalBlock (afterUpdates s qs) := by
    rw [hsame]
    rfl
  refine ⟨_, _, after_updates hopen hps, after_updates hopen hqs, hsame, hfsm, fun hp hq cs opd => ?_,
    exec_fin_of_same_lanes hlanes hblock (afterUpdates_open hopen ps) (afterUpdates_open hopen qs)⟩
  have hresponses : { afterUpdates s qs with responses := (afterUpdates s ps).responses } = afterUpdates s ps := by
    rw [hfsm hp hq] at hsame
    exact hsame.symm
  obtain ⟨t, u, r, ht, hu, hlast⟩ := after_getLast?_eq cs ⟨0x0005, opd⟩ (afterUpdates s qs)
    (afterUpdates s ps).responses (afterUpdates s qs).responses
  rw [hresponses] at ht
  exact ⟨t, u, r, ht, hu, hlast⟩

/-! ## The digest law -/

/-- A command that leaves a FRESH engine right after LaneInit, UPDs and FIN return the hash under its key. -/
theorem after_init_updates_fin {i : Instr} {s t : State} {ps : Pieces} (hw : wellFormed i = true)
    (hexec : exec i s = .next t) (hfsm : t.fsm = .fresh) (hholds : Holds t []) (hlegal : Legal ps) :
    ∃ u, after s (encode i :: updates ps ++ [encode .fin]) = some u ∧
      u.responses.getLast? = some ⟨.ok, sipHashHalves t.k0 t.k1 (stream ps)⟩ := by
  obtain ⟨u, hu, hlast⟩ := after_updates_fin (.inl hfsm) hholds hlegal
  exact ⟨u, (after_cons_encode hw hexec _).trans hu, hlast⟩

/-- Settles O41: KEYC and RST both leave an engine that holds the empty message under the key's two halves, of which
the hash of the stream is then returned (`after_init_updates_fin`). -/
theorem digestIsSipHash : Obligations.DigestIsSipHash := by
  intro s ps hlegal
  refine ⟨fun hcnt => ?_, fun k hkeyed hk0 hk1 => ?_⟩
  · obtain ⟨t, ht, hlast⟩ :=
      after_init_updates_fin rfl (exec_keyc_of_sixteen hcnt) rfl (holds_nil_of_laneInit rfl rfl rfl) hlegal
    exact ⟨t, ht, hlast⟩
  · obtain ⟨t, ht, hlast⟩ :=
      after_init_updates_fin rfl (exec_rst_of_keyed hkeyed) rfl (holds_nil_of_laneInit rfl rfl rfl) hlegal
    refine ⟨t, ht, ?_⟩
    rw [sipHash24, ← hk0, ← hk1]
    exact hlast

/-! ## The length boundaries -/

theorem absorbBlocks_of_length_eq_eight (v : Lanes) {m : List Byte} (h : m.length = 8) :
    absorbBlocks v m = compress (le m) v := by
  simp [absorbBlocks, h, List.take_of_length_le]

theorem finalBlockOf_of_length_eq_eight {m : List Byte} (h : m.length = 8) :
    finalBlockOf m = 0x0800000000000000 := by
  have hrest : restBytes m = [] := List.eq_nil_of_length_eq_zero (by rw [restBytes_length, h])
  rw [finalBlockOf, hrest, h]
  decide

/-- The high byte of the final block is TOTAL_LEN (41_permutation.md R93). -/
theorem finalBlock_topByte (s : State) : (finalBlock s).extractLsb' 56 8 = s.totalLen := by
  obtain ⟨-, -, htop⟩ := finalBlockHoldsTailAndLength s
  exact htop

/-- Settles O43: the engine holds the empty message, so after the UPDs it holds their stream; the lanes, the tail, the
final block and TOTAL_LEN are then those of a message of that length. -/
theorem lengthBoundariesHold : Obligations.LengthBoundariesHold := by
  intro s ps hfsm hinv hlegal
  obtain ⟨-, -, hnil⟩ := hinv.fresh hfsm
  have hlanes : s.lanes = initLanes s.k0 s.k1 := hnil.lanes
  have hholds : Holds (afterUpdates s ps) (stream ps) := afterUpdates_holds hnil ps
  refine ⟨_, after_updates (.inl hfsm) hlegal, fun hshort => ⟨?_, ?_⟩, fun hfull => ⟨?_, ?_⟩, fun hdvd => ?_⟩
  · rw [hholds.lanes, absorbBlocks_of_length_lt _ _ hshort, afterUpdates_k0, afterUpdates_k1, hlanes]
  · rw [hholds.tail, restBytes_of_length_lt _ hshort]
  · rw [hholds.lanes, absorbBlocks_of_length_eq_eight _ hfull, afterUpdates_k0, afterUpdates_k1, hlanes]
  · rw [finalBlock_of_holds hholds, finalBlockOf_of_length_eq_eight hfull]
  · have htotal : (afterUpdates s ps).totalLen = 0 := by
      rw [hholds.totalLen]
      exact BitVec.eq_of_toNat_eq ((BitVec.toNat_ofNat _ _).trans (Nat.mod_eq_zero_of_dvd hdvd))
    exact ⟨htotal, (finalBlock_topByte _).trans htotal⟩

end Sys2Proof.Proofs
